-- ==== Sys2Proof/Word.lean ====
section
/-! DEFINITION. The word types of the block: the 32-bit register and bus word (spec/00_scope.md R7), the byte of the buffer's byte view
(spec/20_memory.md R53) and the 65-bit host transaction HT (spec/30_encoding.md R70). -/

namespace Sys2Proof

/-- A 32-bit register, bus or FBUF word (00_scope R7). -/
abbrev Word := BitVec 32

/-- One byte of the byte view of FBUF (20_memory R53). -/
abbrev Byte := BitVec 8

/-- A host transaction, `RW` in bit 64, `ADDR` in bits 63..32, `DATA` in bits 31..0 (30_encoding R70). -/
abbrev HT := BitVec 65

/-- The index of a 32-bit word inside one half of the bus, `ADDR[30:2]` (20_memory R50). -/
abbrev WordIndex := BitVec 29

end Sys2Proof
end

