-- ==== Sys2Proof/Config.lean ====
section
/-! DEFINITION. What an implementation fixes and what the spec leaves free. Neither constant has a value that a proof can see. -/

namespace Sys2Proof

/-- The free values `draw()` of 00_scope R10, numbered by how many have been taken (log 6). -/
opaque Config.draw : Nat → BitVec 32

/-- The capacity of FBUF that `State.reset` holds, in words less one: the parameter `BUF_BYTES_MAX` of 00_scope R7 is
`4 * (n + 1)` for this `n`, so every multiple of 4 from 4 to 2^31 is possible (log 4). -/
opaque Config.bufCapCode : BitVec 29

end Sys2Proof
end

