-- ==== Sys2Proof/Syntax.lean ====
section
/-! DEFINITION. The operations of the block: one constructor per row of spec/opcode_table.json, in the table's order
(spec/30_encoding.md R72, R73). A read keeps no `DATA`, because a read ignores it and an encoder writes 0 there (R70). -/

namespace Sys2Proof

/-- One operation of the block: a decoded host transaction, an engine step or a reset. -/
inductive Instr where
  /-- RD_CTRL, 42_host_registers R140. -/
  | rdCtrl
  /-- WR_CTRL, 42_host_registers R141. -/
  | wrCtrl (data : Word)
  /-- RD_SRATE, 42_host_registers R142. -/
  | rdSrate
  /-- WR_SRATE, 42_host_registers R143. -/
  | wrSrate (data : Word)
  /-- RD_WFREQ, 42_host_registers R144. -/
  | rdWfreq
  /-- WR_WFREQ, 42_host_registers R145. -/
  | wrWfreq (data : Word)
  /-- RD_CMD, 42_host_registers R146. -/
  | rdCmd
  /-- CMD_NOP, 43_cycle_control R170. -/
  | cmdNop
  /-- CMD_START, 43_cycle_control R171. -/
  | cmdStart
  /-- CMD_RELEASE, 43_cycle_control R172. -/
  | cmdRelease
  /-- CMD_INVALID, 43_cycle_control R173; `data` is not 0, 1 or 2. -/
  | cmdInvalid (data : Word)
  /-- RD_STATUS, 42_host_registers R147. -/
  | rdStatus
  /-- WR_STATUS, 43_cycle_control R174; `data` is the clear mask. -/
  | wrStatus (data : Word)
  /-- RD_FPC, 42_host_registers R148. -/
  | rdFpc
  /-- WR_FPC, 42_host_registers R155; `data` is ignored. -/
  | wrFpc (data : Word)
  /-- RD_BPF, 42_host_registers R149. -/
  | rdBpf
  /-- WR_BPF, 42_host_registers R156; `data` is ignored. -/
  | wrBpf (data : Word)
  /-- RD_BLEN, 42_host_registers R150. -/
  | rdBlen
  /-- WR_BLEN, 42_host_registers R157; `data` is ignored. -/
  | wrBlen (data : Word)
  /-- RD_WRATE, 42_host_registers R151. -/
  | rdWrate
  /-- WR_WRATE, 42_host_registers R158; `data` is ignored. -/
  | wrWrate (data : Word)
  /-- RD_TMULT, 42_host_registers R152. -/
  | rdTmult
  /-- WR_TMULT, 42_host_registers R159; `data` is ignored. -/
  | wrTmult (data : Word)
  /-- RD_FIDX, 42_host_registers R153. -/
  | rdFidx
  /-- WR_FIDX, 42_host_registers R160; `data` is ignored. -/
  | wrFidx (data : Word)
  /-- RD_ACTL, 42_host_registers R154. -/
  | rdActl
  /-- WR_ACTL, 42_host_registers R161; `data` is ignored. -/
  | wrActl (data : Word)
  /-- RD_FBUF, 42_host_registers R162; `k` is `ADDR[30:2]`. -/
  | rdFbuf (k : WordIndex)
  /-- WR_FBUF, 42_host_registers R163; `k` is `ADDR[30:2]`, `data` is ignored. -/
  | wrFbuf (k : WordIndex) (data : Word)
  /-- RD_UNMAPPED, 42_host_registers R164; `k` is `ADDR[30:2]`, at least 12. -/
  | rdUnmapped (k : WordIndex)
  /-- WR_UNMAPPED, 42_host_registers R165; `k` is `ADDR[30:2]`, at least 12; `data` is ignored. -/
  | wrUnmapped (k : WordIndex) (data : Word)
  /-- ENG_FRAME, 41_packer R130; internal, no encoding (30_encoding R73). -/
  | engFrame
  /-- RESET, 70_reset_and_hazards R220; internal, no encoding (30_encoding R73). -/
  | reset
  deriving DecidableEq, Repr

end Sys2Proof
end

