-- ==== Sys2Proof/WellFormed.lean ====
section
/-! DEFINITION. Which terms of `Instr` are operations of the block: three rows of the opcode table stand for "any other" value of an
operand (spec/30_encoding.md R72), and their operands must be one of those others. -/

namespace Sys2Proof

/-- The number of registers that have an address: words 0 to 11 of the register block (10_state R23). -/
def registerCount : Nat := 12

/-- Whether a term is an operation of the block (30_encoding R72). `CMD_INVALID` carries no command code of 43_cycle_control R170 to
R172, and the two default rows carry no register's address. -/
def WellFormed : Instr → Bool
  | .cmdInvalid data => 2 < data.toNat
  | .rdUnmapped k => registerCount ≤ k.toNat
  | .wrUnmapped k _ => registerCount ≤ k.toNat
  | .rdCtrl | .rdSrate | .rdWfreq | .rdCmd | .rdStatus | .rdFpc | .rdBpf | .rdBlen | .rdWrate | .rdTmult | .rdFidx | .rdActl => true
  | .wrCtrl _ | .wrSrate _ | .wrWfreq _ | .wrStatus _ => true
  | .wrFpc _ | .wrBpf _ | .wrBlen _ | .wrWrate _ | .wrTmult _ | .wrFidx _ | .wrActl _ => true
  | .cmdNop | .cmdStart | .cmdRelease => true
  | .rdFbuf _ | .wrFbuf _ _ => true
  | .engFrame | .reset => true

end Sys2Proof
end

