-- ==== Sys2Proof/Decode.lean ====
section
/-! DEFINITION. From a host transaction to an operation (spec/30_encoding.md R70 to R73, R75), the opcode table of R72 as data, the
decoding procedure of R71 over it, and the encoder. `decode` reads the same rows field by field; that it agrees with R71's procedure
on every transaction is a statement of Certificates/Slice0/Obligations.lean. -/

namespace Sys2Proof

/-- Why the model gives a host access no meaning. Neither is an error of the block, and no flag is set (20_memory R56, R57). -/
inductive DecodeRefusal where
  /-- `refuse(misaligned)`: `ADDR[1:0]` is not 0 (20_memory R56). -/
  | misaligned
  /-- `refuse(width)`: the access does not move 4 bytes (20_memory R57). -/
  | width
  deriving DecidableEq, Repr

/-- `ADDR[30:2]` of an address (20_memory R50). -/
def wordIndexOf (addr : BitVec 32) : WordIndex := addr.extractLsb' 2 29

/-- `RW`, bit 64: true for a write (30_encoding R70). -/
def isWrite (ht : HT) : Bool := ht.getLsbD 64

/-- `ADDR`, bits 63..32 (30_encoding R70). -/
def addrOf (ht : HT) : BitVec 32 := ht.extractLsb' 32 32

/-- `DATA`, bits 31..0 (30_encoding R70). -/
def dataOf (ht : HT) : Word := ht.extractLsb' 0 32

/-- The transaction with the given fields (30_encoding R70). -/
def transaction (write : Bool) (addr : BitVec 32) (data : Word) : HT := BitVec.ofBool write ++ addr ++ data

/-- The address of FBUF word `k`, `0x8000_0000 + 4k` (20_memory R50). -/
def windowAddr (k : WordIndex) : BitVec 32 := 1#1 ++ k ++ 0#2

/-- The address `4k` of a word below `0x8000_0000` (20_memory R50). -/
def lowAddr (k : WordIndex) : BitVec 32 := 0#1 ++ k ++ 0#2

/-- A write to CMD: the whole of `DATA` is the command code (30_encoding R75; 43_cycle_control R170 to R173). -/
def decodeCommand (data : Word) : Instr :=
  match data with
  | 0#32 => .cmdNop
  | 1#32 => .cmdStart
  | 2#32 => .cmdRelease
  | _ => .cmdInvalid data

/-- An aligned read with `ADDR[31] = 0`: the register at that address (10_state R23), or unmapped. -/
def decodeLowRead (addr : BitVec 32) : Instr :=
  match addr with
  | 0x00#32 => .rdCtrl
  | 0x04#32 => .rdSrate
  | 0x08#32 => .rdWfreq
  | 0x0C#32 => .rdCmd
  | 0x10#32 => .rdStatus
  | 0x14#32 => .rdFpc
  | 0x18#32 => .rdBpf
  | 0x1C#32 => .rdBlen
  | 0x20#32 => .rdWrate
  | 0x24#32 => .rdTmult
  | 0x28#32 => .rdFidx
  | 0x2C#32 => .rdActl
  | _ => .rdUnmapped (wordIndexOf addr)

/-- An aligned write with `ADDR[31] = 0`: the register at that address (10_state R23), or unmapped. -/
def decodeLowWrite (addr : BitVec 32) (data : Word) : Instr :=
  match addr with
  | 0x00#32 => .wrCtrl data
  | 0x04#32 => .wrSrate data
  | 0x08#32 => .wrWfreq data
  | 0x0C#32 => decodeCommand data
  | 0x10#32 => .wrStatus data
  | 0x14#32 => .wrFpc data
  | 0x18#32 => .wrBpf data
  | 0x1C#32 => .wrBlen data
  | 0x20#32 => .wrWrate data
  | 0x24#32 => .wrTmult data
  | 0x28#32 => .wrFidx data
  | 0x2C#32 => .wrActl data
  | _ => .wrUnmapped (wordIndexOf addr) data

/-- The operation a host transaction stands for (30_encoding R71, R72); refused where it is misaligned (20_memory R56). -/
def decode (ht : HT) : Except DecodeRefusal Instr :=
  let addr := addrOf ht
  if addr.extractLsb' 0 2 ≠ 0#2 then .error .misaligned
  else if addr.msb then
    .ok (if isWrite ht then .wrFbuf (wordIndexOf addr) (dataOf ht) else .rdFbuf (wordIndexOf addr))
  else
    .ok (if isWrite ht then decodeLowWrite addr (dataOf ht) else decodeLowRead addr)

/-- A host access of `bytes` bytes: only 4 has a meaning (20_memory R57). -/
def decodeAccess (bytes : Nat) (ht : HT) : Except DecodeRefusal Instr :=
  if bytes ≠ 4 then .error .width else decode ht

/-- A row of the opcode table: its mask, its match and the operation it stands for (30_encoding R72). -/
structure OpcodeRow where
  mnemonic : String
  mask : HT
  pattern : HT
  build : HT → Instr

/-- The rows of the table that are reads (30_encoding R72). -/
def opcodeRowsRead : List OpcodeRow :=
  [⟨"RD_CTRL", 0x1FFFFFFFF00000000#65, 0x00000000000000000#65, fun _ => .rdCtrl⟩,
   ⟨"RD_SRATE", 0x1FFFFFFFF00000000#65, 0x00000000400000000#65, fun _ => .rdSrate⟩,
   ⟨"RD_WFREQ", 0x1FFFFFFFF00000000#65, 0x00000000800000000#65, fun _ => .rdWfreq⟩,
   ⟨"RD_CMD", 0x1FFFFFFFF00000000#65, 0x00000000C00000000#65, fun _ => .rdCmd⟩,
   ⟨"RD_STATUS", 0x1FFFFFFFF00000000#65, 0x00000001000000000#65, fun _ => .rdStatus⟩,
   ⟨"RD_FPC", 0x1FFFFFFFF00000000#65, 0x00000001400000000#65, fun _ => .rdFpc⟩,
   ⟨"RD_BPF", 0x1FFFFFFFF00000000#65, 0x00000001800000000#65, fun _ => .rdBpf⟩,
   ⟨"RD_BLEN", 0x1FFFFFFFF00000000#65, 0x00000001C00000000#65, fun _ => .rdBlen⟩,
   ⟨"RD_WRATE", 0x1FFFFFFFF00000000#65, 0x00000002000000000#65, fun _ => .rdWrate⟩,
   ⟨"RD_TMULT", 0x1FFFFFFFF00000000#65, 0x00000002400000000#65, fun _ => .rdTmult⟩,
   ⟨"RD_FIDX", 0x1FFFFFFFF00000000#65, 0x00000002800000000#65, fun _ => .rdFidx⟩,
   ⟨"RD_ACTL", 0x1FFFFFFFF00000000#65, 0x00000002C00000000#65, fun _ => .rdActl⟩,
   ⟨"RD_FBUF", 0x18000000300000000#65, 0x08000000000000000#65, fun ht => .rdFbuf (wordIndexOf (addrOf ht))⟩,
   ⟨"RD_UNMAPPED", 0x18000000300000000#65, 0x00000000000000000#65, fun ht => .rdUnmapped (wordIndexOf (addrOf ht))⟩]

/-- The rows of the table that write CMD (30_encoding R72). -/
def opcodeRowsCommand : List OpcodeRow :=
  [⟨"CMD_NOP", 0x1FFFFFFFFFFFFFFFF#65, 0x10000000C00000000#65, fun _ => .cmdNop⟩,
   ⟨"CMD_START", 0x1FFFFFFFFFFFFFFFF#65, 0x10000000C00000001#65, fun _ => .cmdStart⟩,
   ⟨"CMD_RELEASE", 0x1FFFFFFFFFFFFFFFF#65, 0x10000000C00000002#65, fun _ => .cmdRelease⟩,
   ⟨"CMD_INVALID", 0x1FFFFFFFF00000000#65, 0x10000000C00000000#65, fun ht => .cmdInvalid (dataOf ht)⟩]

/-- The rows of the table that are other writes (30_encoding R72). -/
def opcodeRowsWrite : List OpcodeRow :=
  [⟨"WR_CTRL", 0x1FFFFFFFF00000000#65, 0x10000000000000000#65, fun ht => .wrCtrl (dataOf ht)⟩,
   ⟨"WR_SRATE", 0x1FFFFFFFF00000000#65, 0x10000000400000000#65, fun ht => .wrSrate (dataOf ht)⟩,
   ⟨"WR_WFREQ", 0x1FFFFFFFF00000000#65, 0x10000000800000000#65, fun ht => .wrWfreq (dataOf ht)⟩,
   ⟨"WR_STATUS", 0x1FFFFFFFF00000000#65, 0x10000001000000000#65, fun ht => .wrStatus (dataOf ht)⟩,
   ⟨"WR_FPC", 0x1FFFFFFFF00000000#65, 0x10000001400000000#65, fun ht => .wrFpc (dataOf ht)⟩,
   ⟨"WR_BPF", 0x1FFFFFFFF00000000#65, 0x10000001800000000#65, fun ht => .wrBpf (dataOf ht)⟩,
   ⟨"WR_BLEN", 0x1FFFFFFFF00000000#65, 0x10000001C00000000#65, fun ht => .wrBlen (dataOf ht)⟩,
   ⟨"WR_WRATE", 0x1FFFFFFFF00000000#65, 0x10000002000000000#65, fun ht => .wrWrate (dataOf ht)⟩,
   ⟨"WR_TMULT", 0x1FFFFFFFF00000000#65, 0x10000002400000000#65, fun ht => .wrTmult (dataOf ht)⟩,
   ⟨"WR_FIDX", 0x1FFFFFFFF00000000#65, 0x10000002800000000#65, fun ht => .wrFidx (dataOf ht)⟩,
   ⟨"WR_ACTL", 0x1FFFFFFFF00000000#65, 0x10000002C00000000#65, fun ht => .wrActl (dataOf ht)⟩,
   ⟨"WR_FBUF", 0x18000000300000000#65, 0x18000000000000000#65, fun ht => .wrFbuf (wordIndexOf (addrOf ht)) (dataOf ht)⟩,
   ⟨"WR_UNMAPPED", 0x18000000300000000#65, 0x10000000000000000#65, fun ht => .wrUnmapped (wordIndexOf (addrOf ht)) (dataOf ht)⟩]

/-- The opcode table (30_encoding R72). The order of the rows does not matter: R71 goes by the weight of the mask. -/
def opcodeRows : List OpcodeRow := opcodeRowsRead ++ opcodeRowsCommand ++ opcodeRowsWrite

/-- The number of 1 bits of a mask (30_encoding R71). -/
def maskWeight (mask : HT) : Nat := (List.range 65).countP fun n => mask.getLsbD n

/-- Whether a row matches: `(HT & mask) = match` (30_encoding R71). -/
def OpcodeRow.accepts (r : OpcodeRow) (ht : HT) : Bool := ht &&& r.mask == r.pattern

/-- The row with the most 1 bits in its mask (30_encoding R71). -/
def heaviestRow : List OpcodeRow → Option OpcodeRow
  | [] => none
  | r :: rs =>
    match heaviestRow rs with
    | none => some r
    | some best => some (if maskWeight best.mask ≤ maskWeight r.mask then r else best)

/-- The decoding procedure of 30_encoding R71, as it stands there, over the table. -/
def decodeByTable (ht : HT) : Option Instr :=
  if ht.extractLsb' 32 2 ≠ 0#2 then none
  else (heaviestRow (opcodeRows.filter (·.accepts ht))).map fun r => r.build ht

/-- The transaction of a well-formed operation, with 0 for the `DATA` of a read (30_encoding R70, R72); ENG_FRAME and RESET have none
(R73). -/
def encode : Instr → Option HT
  | .rdCtrl => some (transaction false 0x00#32 0#32)
  | .wrCtrl data => some (transaction true 0x00#32 data)
  | .rdSrate => some (transaction false 0x04#32 0#32)
  | .wrSrate data => some (transaction true 0x04#32 data)
  | .rdWfreq => some (transaction false 0x08#32 0#32)
  | .wrWfreq data => some (transaction true 0x08#32 data)
  | .rdCmd => some (transaction false 0x0C#32 0#32)
  | .cmdNop => some (transaction true 0x0C#32 0#32)
  | .cmdStart => some (transaction true 0x0C#32 1#32)
  | .cmdRelease => some (transaction true 0x0C#32 2#32)
  | .cmdInvalid data => some (transaction true 0x0C#32 data)
  | .rdStatus => some (transaction false 0x10#32 0#32)
  | .wrStatus data => some (transaction true 0x10#32 data)
  | .rdFpc => some (transaction false 0x14#32 0#32)
  | .wrFpc data => some (transaction true 0x14#32 data)
  | .rdBpf => some (transaction false 0x18#32 0#32)
  | .wrBpf data => some (transaction true 0x18#32 data)
  | .rdBlen => some (transaction false 0x1C#32 0#32)
  | .wrBlen data => some (transaction true 0x1C#32 data)
  | .rdWrate => some (transaction false 0x20#32 0#32)
  | .wrWrate data => some (transaction true 0x20#32 data)
  | .rdTmult => some (transaction false 0x24#32 0#32)
  | .wrTmult data => some (transaction true 0x24#32 data)
  | .rdFidx => some (transaction false 0x28#32 0#32)
  | .wrFidx data => some (transaction true 0x28#32 data)
  | .rdActl => some (transaction false 0x2C#32 0#32)
  | .wrActl data => some (transaction true 0x2C#32 data)
  | .rdFbuf k => some (transaction false (windowAddr k) 0#32)
  | .wrFbuf k data => some (transaction true (windowAddr k) data)
  | .rdUnmapped k => some (transaction false (lowAddr k) 0#32)
  | .wrUnmapped k data => some (transaction true (lowAddr k) data)
  | .engFrame | .reset => none

/-- The operation this decoder reads from the transaction whose bits are `w`, bit 0 of `w` being bit 0 of HT; no transaction has a bit
above 64 (log 12). -/
def decodeTableWord (_nbits w : Nat) : Option Instr :=
  if w < 2 ^ 65 then (decode (BitVec.ofNat 65 w)).toOption else none

end Sys2Proof
end

