-- ==== Sys2Proof/Machine/State.lean ====
section
/-! DEFINITION. The state of the block (spec/10_state.md R21), what may come next (R20), why a step can stop, and the state after
reset (spec/70_reset_and_hazards.md R220). -/

namespace Sys2Proof.Machine

/-- FBUF, as the listed bytes of the bus: addresses strictly rise, and a byte that is not listed is `unknown` (10_state R40, log 7). -/
abbrev Memory := List Host.Cell

/-- One step of one agent (10_state R20): what the schedule of the environment is made of (log 1). -/
inductive Event where
  /-- The host issues a transaction that moves `bytes` bytes; only 4 has a meaning (20_memory R57). -/
  | access (bytes : Nat) (ht : HT)
  /-- The engine takes its step, where it is enabled (41_packer R130). -/
  | engine
  /-- The environment resets the block (70_reset_and_hazards R220). -/
  | reset
  deriving DecidableEq, Repr

/-- STATUS.STATE = IDLE: no cycle outstanding (10_state R31). -/
def IDLE : BitVec 2 := 0

/-- STATUS.STATE = BUSY: the engine is building a cycle's buffer (10_state R31). -/
def BUSY : BitVec 2 := 1

/-- STATUS.STATE = READY: the buffer is complete and handed to the transport (10_state R31). -/
def READY : BitVec 2 := 2

/-- The state. The first sixteen fields are the block's (10_state R21); the last four are the model's own (logs 1, 4, 6, 8). -/
structure State where
  /-- CTRL[6:0], the stored bits of CTRL (10_state R25). -/
  ctrl : BitVec 7
  /-- SRATE, the logical sample rate in Hz (10_state R27). -/
  srate : Word
  /-- WFREQ, the waveform frequency in Hz (10_state R28). -/
  wfreq : Word
  /-- STATUS.STATE, the sequencer state (10_state R31). -/
  seq : BitVec 2
  /-- STATUS.CFGERR (10_state R30). -/
  cfgerr : Bool
  /-- STATUS.ALLOCERR (10_state R30). -/
  allocerr : Bool
  /-- STATUS.CMDERR (10_state R30). -/
  cmderr : Bool
  /-- STATUS.ECODE, the cause of the most recent error (10_state R30, 60_exceptions R200). -/
  ecode : BitVec 4
  /-- FPC, the active `framesPerCycle` (10_state R33). -/
  fpc : Word
  /-- BPF, the active `bytesPerFrame` (10_state R34). -/
  bpf : Word
  /-- BLEN, the active buffer length in bytes (10_state R35). -/
  blen : Word
  /-- WRATE, the active wire sample rate (10_state R36). -/
  wrate : Word
  /-- TMULT, the active fake-TDM multiplier (10_state R38). -/
  tmult : Word
  /-- FIDX, the number of frames already packed (10_state R39). -/
  fidx : Word
  /-- ACTL[6:0], CTRL as the last accepted START found it (10_state R37). -/
  actl : BitVec 7
  /-- FBUF (10_state R40, log 7). -/
  mem : Memory
  /-- The parameter `BUF_BYTES_MAX` (00_scope R7), in words less one; no step writes it (log 4). -/
  capCode : BitVec 29
  /-- The value the last read returned to the host (30_encoding R70, log 8). -/
  rdata : Word
  /-- How many free values `draw()` have been taken (00_scope R10, log 6). -/
  draws : Nat
  /-- The steps that the environment has scheduled, the next one first (log 1). -/
  pending : List Event
  deriving DecidableEq, Repr

/-- What stops the machine for good. The engine cannot fail (41_packer R130), so no reachable state raises one (log 11). -/
inductive Fault where
  /-- ENG_FRAME in BUSY with FIDX not below FPC: the synthesizer has no frame of that index (40_synthesizer R100). Safe: the model stops
  where the spec gives no value, and the invariant of 10_state R41 rules the state out. -/
  | frameOutOfRange
  /-- ENG_FRAME in BUSY with an ACTL that is no legal configuration: "No other pair reaches PACK" (41_packer R124). Safe, as above. -/
  | noLayout
  /-- ENG_FRAME in BUSY for a frame that does not lie inside FBUF: the word written does not exist (10_state R40). Safe, as above. -/
  | outsideBuffer
  deriving DecidableEq, Repr

/-- What the model gives no meaning. -/
inductive Refusal where
  /-- An instruction that has no meaning yet; raised by `exec` alone. Safe: the model stops where the block goes on. -/
  | notModelled (mnemonic : String)
  /-- `refuse(misaligned)`, 20_memory R56; raised by `step` for a host access with `ADDR[1:0]` not 0. Safe: the spec gives it no
  meaning (log 9). -/
  | misaligned
  /-- `refuse(width)`, 20_memory R57; raised by `step` for a host access of other than 4 bytes. Safe: the spec gives it no meaning
  (log 9). -/
  | width
  deriving DecidableEq, Repr

/-- The state right after reset (70_reset_and_hazards R220): every register 0, STATE IDLE, every word of FBUF unknown. The model's own
fields: the capacity is whatever it is (log 4), no value has been returned or drawn (logs 6, 8), nothing is scheduled (log 3). -/
def State.reset : State where
  ctrl := 0
  srate := 0
  wfreq := 0
  seq := IDLE
  cfgerr := false
  allocerr := false
  cmderr := false
  ecode := 0
  fpc := 0
  bpf := 0
  blen := 0
  wrate := 0
  tmult := 0
  fidx := 0
  actl := 0
  mem := []
  capCode := Config.bufCapCode
  rdata := 0
  draws := 0
  pending := []

end Sys2Proof.Machine
end

