-- ==== Sys2Proof/Machine/Flags.lean ====
section
/-! DEFINITION. The flags of the block: the error codes and the flag each belongs to (spec/60_exceptions.md R200), the STATUS word
(spec/42_host_registers.md R147) and its write-1-to-clear rule (spec/43_cycle_control.md R174). The block has no arithmetic condition
codes (spec/10_state.md R32). -/

namespace Sys2Proof.Machine

/-- The error causes of 60_exceptions R200, in the order of their codes. -/
inductive ErrCode where
  | cmdStartState
  | cmdReleaseState
  | cmdUnknown
  | cfgBdep
  | cfgChcnt
  | cfgChw
  | cfgWidth
  | cfgWfreqZero
  | cfgNoFrames
  | cfgWrateOvf
  | alloc
  deriving DecidableEq, Repr

/-- The flags an error can belong to (10_state R32). -/
inductive ErrFlag where
  | cfgerr
  | allocerr
  | cmderr
  deriving DecidableEq, Repr

/-- The code of a cause, as ECODE holds it (60_exceptions R200). -/
def errCodeBits : ErrCode → BitVec 4
  | .cmdStartState => 0x1
  | .cmdReleaseState => 0x2
  | .cmdUnknown => 0x3
  | .cfgBdep => 0x4
  | .cfgChcnt => 0x5
  | .cfgChw => 0x6
  | .cfgWidth => 0x7
  | .cfgWfreqZero => 0x8
  | .cfgNoFrames => 0x9
  | .cfgWrateOvf => 0xA
  | .alloc => 0xB

/-- The flag of a cause (60_exceptions R200). -/
def errFlagOf : ErrCode → ErrFlag
  | .cmdStartState | .cmdReleaseState | .cmdUnknown => .cmderr
  | .cfgBdep | .cfgChcnt | .cfgChw | .cfgWidth | .cfgWfreqZero | .cfgNoFrames | .cfgWrateOvf => .cfgerr
  | .alloc => .allocerr

/-- The STATUS word a read returns; the reserved bits read as 0 (42_host_registers R147). -/
def statusWord (s : State) : Word :=
  0#20 ++ s.ecode ++ 0#3 ++ BitVec.ofBool s.cmderr ++ BitVec.ofBool s.allocerr ++ BitVec.ofBool s.cfgerr ++ s.seq

/-- Writing 1 clears: `DATA[2]` CFGERR, `DATA[3]` ALLOCERR, `DATA[4]` CMDERR, and ECODE once no flag is left (43_cycle_control R174). -/
def clearFlags (data : Word) (s : State) : State :=
  let cfgerr := s.cfgerr && !data.getLsbD 2
  let allocerr := s.allocerr && !data.getLsbD 3
  let cmderr := s.cmderr && !data.getLsbD 4
  { s with
    cfgerr := cfgerr
    allocerr := allocerr
    cmderr := cmderr
    ecode := if cfgerr || allocerr || cmderr then s.ecode else 0 }

end Sys2Proof.Machine
end

