-- ==== Sys2Proof/Machine/Ops.lean ====
section
/-! DEFINITION. The named operations over memory and registers: bytes and words of FBUF (spec/20_memory.md R50, R52, R53), what a read
returns to the host, `draw()` (spec/00_scope.md R10), and `raise Error(code)` (spec/60_exceptions.md R202), which is this hardware's
taking of an exception: it has no trap, no vector and no saved state (R205), and its only return is the write to STATUS (R206). -/

namespace Sys2Proof.Machine

/-- The canonical form of memory: addresses strictly rise. No listed byte can equal what an unlisted address holds, which is
`unknown` (log 7). -/
abbrev Memory.wf (m : Memory) : Prop := m.Pairwise fun c d => c.1 < d.1

/-- The byte at an address, none where it is `unknown` (10_state R40). -/
def Memory.readByte : Memory → Nat → Option Byte
  | [], _ => none
  | (b, v) :: rest, a => if b = a then some v else Memory.readByte rest a

/-- Memory with one byte written, in canonical form. -/
def Memory.writeByte : Memory → Nat → Byte → Memory
  | [], a, v => [(a, v)]
  | (b, w) :: rest, a, v =>
    if a < b then (a, v) :: (b, w) :: rest
    else if a = b then (a, v) :: rest
    else (b, w) :: Memory.writeByte rest a v

/-- The little-endian word at an address, none where a byte of it is `unknown` (20_memory R53). -/
def Memory.readWord (m : Memory) (a : Nat) : Option Word := do
  let b0 ← m.readByte a
  let b1 ← m.readByte (a + 1)
  let b2 ← m.readByte (a + 2)
  let b3 ← m.readByte (a + 3)
  return b3 ++ b2 ++ b1 ++ b0

/-- Memory with a word written, its low byte at the lowest address (20_memory R53). -/
def Memory.writeWord (m : Memory) (a : Nat) (v : Word) : Memory :=
  (((m.writeByte a (v.extractLsb' 0 8)).writeByte (a + 1) (v.extractLsb' 8 8)).writeByte (a + 2) (v.extractLsb' 16 8)).writeByte
    (a + 3) (v.extractLsb' 24 8)

/-- Memory with consecutive words written from an address upward. -/
def Memory.writeWords : Memory → Nat → List Word → Memory
  | m, _, [] => m
  | m, a, v :: vs => Memory.writeWords (m.writeWord a v) (a + 4) vs

/-- The bus address of the FBUF window (20_memory R50). -/
def fbufBase : Nat := 0x80000000

/-- The parameter `BUF_BYTES_MAX`, the capacity of FBUF in bytes (00_scope R7). -/
def State.bufBytesMax (s : State) : Nat := 4 * (s.capCode.toNat + 1)

/-- The bus address of FBUF word `k` (20_memory R50). -/
def fbufAddr (k : Nat) : Nat := fbufBase + 4 * k

/-- `FBUF[k]`, none where it is `unknown` (10_state R40). -/
def State.fbufWord (s : State) (k : Nat) : Option Word := s.mem.readWord (fbufAddr k)

/-- Byte `m` of the byte view of FBUF (20_memory R53), none where it is `unknown`. -/
def State.fbufByte (s : State) (m : Nat) : Option Byte := s.mem.readByte (fbufBase + m)

/-- The engine's write of words `words` at FBUF word `k` and after (41_packer R130). -/
def State.writeFbuf (s : State) (k : Nat) (words : List Word) : State := { s with mem := s.mem.writeWords (fbufAddr k) words }

/-- A read returns a value to the host and changes nothing of the block (20_memory R58, log 8). -/
def State.deliver (s : State) (v : Word) : State := { s with rdata := v }

/-- A read that returns `draw()`, a free value (00_scope R10, log 6). -/
def State.deliverDraw (s : State) : State := { s with rdata := Config.draw s.draws, draws := s.draws + 1 }

/-- `raise Error(code)`: sets the flag of the code and ECODE, and nothing else (60_exceptions R202). -/
def State.raise (s : State) (e : ErrCode) : State :=
  match errFlagOf e with
  | .cfgerr => { s with cfgerr := true, ecode := errCodeBits e }
  | .allocerr => { s with allocerr := true, ecode := errCodeBits e }
  | .cmderr => { s with cmderr := true, ecode := errCodeBits e }

end Sys2Proof.Machine
end

