-- ==== Sys2Proof/Machine/Operands.lean ====
section
/-! DEFINITION. Operand assembly: the fields of CTRL and ACTL (spec/30_encoding.md R74) and the legal configurations
(spec/10_state.md R26). -/

namespace Sys2Proof.Machine

/-- A configuration with no reserved field code: bit depth `b`, channel count `C`, channel width `W`, and whether the mode is
diagnostic-pattern (30_encoding R74). -/
structure Cfg where
  b : Nat
  C : Nat
  W : Nat
  diag : Bool
  deriving DecidableEq, Repr

/-- `bitDepth(code)`; none for the reserved code (30_encoding R74). -/
def bitDepth (code : BitVec 2) : Option Nat :=
  match code with
  | 0 => some 16
  | 1 => some 24
  | 2 => some 32
  | 3 => none

/-- `channelCount(code)`; none for the reserved code (30_encoding R74). -/
def channelCount (code : BitVec 2) : Option Nat :=
  match code with
  | 0 => some 4
  | 1 => some 8
  | 2 => some 16
  | 3 => none

/-- `channelWidth(code)`; none for the reserved code (30_encoding R74). -/
def channelWidth (code : BitVec 2) : Option Nat :=
  match code with
  | 0 => some 16
  | 1 => some 24
  | 2 => some 32
  | 3 => none

/-- CTRL.BDEP, bits [1:0] (10_state R25). -/
def bdepField (ctrl : BitVec 7) : BitVec 2 := ctrl.extractLsb' 0 2

/-- CTRL.CHCNT, bits [3:2] (10_state R25). -/
def chcntField (ctrl : BitVec 7) : BitVec 2 := ctrl.extractLsb' 2 2

/-- CTRL.CHW, bits [5:4] (10_state R25). -/
def chwField (ctrl : BitVec 7) : BitVec 2 := ctrl.extractLsb' 4 2

/-- CTRL.MODE, bit [6]: true for diagnostic-pattern, false for triangle-sine (10_state R25). -/
def modeField (ctrl : BitVec 7) : Bool := ctrl.getLsbD 6

/-- The pairs (bitDepth, channelWidthBits) that have a layout (10_state R26). -/
def legalPair (b W : Nat) : Bool := (b, W) ∈ [(16, 16), (24, 32), (32, 32)]

/-- The configuration a CTRL or ACTL value names, where no field is reserved (30_encoding R74). -/
def decodeCfg (ctrl : BitVec 7) : Option Cfg :=
  match bitDepth (bdepField ctrl), channelCount (chcntField ctrl), channelWidth (chwField ctrl) with
  | some b, some C, some W => some ⟨b, C, W, modeField ctrl⟩
  | _, _, _ => none

/-- The configuration a CTRL or ACTL value names, where it is legal (10_state R26). -/
def legalCfg (ctrl : BitVec 7) : Option Cfg := (decodeCfg ctrl).filter fun c => legalPair c.b c.W

end Sys2Proof.Machine
end

