-- ==== Sys2Proof/Machine/Synth.lean ====
section
/-! DEFINITION. The waveform and pattern synthesizer (spec/40_synthesizer.md): pure functions of the frame index and the active
configuration. `b` is the bit depth, `N` the frames of a cycle, `i` a frame index below `N`, `j` a logical channel. The sine is the
exact value of R103, found by integer arithmetic alone (log 5): `Laws/Sine.lean` ties it to the real sine. -/

namespace Sys2Proof.Machine

/-- `UP(N, k)`, the direction of the triangle at frame `k` (40_synthesizer R102). -/
def up (N k : Nat) : Bool := 2 * k ≤ N

/-- `TRI(b, N, i)`, the triangle sample of frame `i` (40_synthesizer R101). -/
def tri (b N i : Nat) : Int :=
  let start : Int := -(((2 ^ (b - 1) : Nat) : Int) - 1)
  let U : Int := ((min i (N / 2) + 1 : Nat) : Int)
  let D : Int := ((i + 1 : Nat) : Int) - U
  Int.tdiv (start * (N : Int) + (U - D) * ((2 ^ b : Nat) : Int)) (N : Int)

/-- The count of quarter turns `q` brought up to date, where the number of quarter turns is now `q` or `q + 1` and the point reached is
`(x, y·√D)`: the point tells whether that number is odd. -/
def nextTurns (q : Nat) (x y : Int) : Nat :=
  let odd := (decide (x ≤ 0) && decide (0 < y)) || (decide (0 ≤ x) && decide (y < 0))
  if odd == (q % 2 == 1) then q else q + 1

/-- For `z = k + i·√D` with `D = s² - k²` and `φ` its angle: `zⁿ` as `(x, y)` with `zⁿ = x + i·y·√D`, and how many whole quarter turns
`n·φ` makes. By squaring; `fuel` bounds the binary digits of `n`. -/
def powerTurns (k D : Int) : Nat → Nat → Int × Int × Nat
  | 0, _ => (1, 0, 0)
  | fuel + 1, n =>
    if n = 0 then (1, 0, 0)
    else
      match powerTurns k D fuel (n / 2) with
      | (x, y, q) =>
        let x2 := x * x - D * (y * y)
        let y2 := 2 * (x * y)
        let q2 := nextTurns (2 * q) x2 y2
        if n % 2 = 0 then (x2, y2, q2)
        else
          let x3 := k * x2 - D * y2
          let y3 := x2 + k * y2
          (x3, y3, nextTurns q2 x3 y3)

/-- Whether `k ≤ s·sin(2πi/N)`, for `2i ≤ N`, exactly: the angle whose cosine is `k/s` is compared with the distance of `2πi/N` from a
quarter turn, by counting the quarter turns of its `N`-fold (log 5). -/
def sineAtLeast (s N i k : Nat) : Bool :=
  decide (k ≤ s) && decide ((4 * (i : Int) - (N : Int)).natAbs ≤ (powerTurns (k : Int) ((s : Int) * s - (k : Int) * k) N N).2.2)

/-- The greatest number below `2^bits` that a downward closed test allows, added to `k` from its highest binary digit down. -/
def greatest (test : Nat → Bool) : Nat → Nat → Nat
  | 0, k => k
  | bits + 1, k => greatest test bits (if test (k + 2 ^ bits) then k + 2 ^ bits else k)

/-- `SINE(b, N, i)` for `2i ≤ N`, where the sine is not negative (40_synthesizer R103). -/
def sineUpper (b N i : Nat) : Nat := greatest (sineAtLeast (2 ^ (b - 1) - 1) N i) (b - 1) 0

/-- `SINE(b, N, i)`, the sine sample of frame `i`: `trunc((2^(b-1) - 1)·sin(2πi/N))`, exactly; the lower half by
`SINE(b, N, N - i) = -SINE(b, N, i)` (40_synthesizer R103, log 5). -/
def sine (b N i : Nat) : Int :=
  if 2 * i ≤ N then (sineUpper b N i : Int) else -(sineUpper b N (N - i) : Int)

/-- `TRI_SINE_CH(i, j)`: the triangle on the even channels, the sine on the odd ones (40_synthesizer R104). -/
def triSineCh (b N i j : Nat) : Int := if j % 2 = 0 then tri b N i else sine b N i

/-- `DIAG(j)`: bit `j` alone (40_synthesizer R105). -/
def diag (j : Nat) : Int := ((2 ^ j : Nat) : Int)

/-- `DIAG_ID(j)`, the channel index (40_synthesizer R106). -/
def diagId (j : Nat) : Nat := j

/-- `SYNTH(i, j)`: the sample `s(i, j)` and the low part `e(i, j)` (40_synthesizer R100). -/
def synth (c : Cfg) (N i j : Nat) : Int × Nat :=
  if c.diag then (diag j, diagId j) else (triSineCh c.b N i j, 0)

end Sys2Proof.Machine
end

