-- ==== Sys2Proof/Machine/Packer.lean ====
section
/-! DEFINITION. The frame packer, the cycle geometry, the views of a packed buffer, and the engine step (spec/41_packer.md). -/

namespace Sys2Proof.Machine

/-- The cycle parameters of 41_packer R120, unbounded integers: BLEN and WRATE are checked before they are stored. -/
structure Geom where
  N : Nat
  bpf : Nat
  blen : Nat
  tmult : Nat
  wrate : Nat
  deriving DecidableEq, Repr

/-- `GEOM` (41_packer R120), for channel count `C`, channel width `W` and the rates. -/
def geom (C W srate wfreq : Nat) : Geom where
  N := srate / wfreq
  bpf := C * W / 8
  blen := srate / wfreq * (C * W / 8)
  tmult := C / 2
  wrate := srate * (C / 2)

/-- `WPF`, the FBUF words of a frame (41_packer R121). -/
def wordsPerFrame (C W : Nat) : Nat := C * W / 32

/-- `PACK16(i, w)`: channel `2w` in the high half, channel `2w + 1` in the low half (41_packer R122). -/
def pack16 (c : Cfg) (N i w : Nat) : Word :=
  BitVec.ofInt 16 (synth c N i (2 * w)).1 ++ BitVec.ofInt 16 (synth c N i (2 * w + 1)).1

/-- `PACK24(i, j)`: the sample left-justified, the low part in the low byte (41_packer R123). -/
def pack24 (c : Cfg) (N i j : Nat) : Word :=
  BitVec.ofInt 24 (synth c N i j).1 ++ BitVec.ofNat 8 (synth c N i j).2

/-- The word of channel `j` in a (32, 32) frame: the sample alone (41_packer R124). -/
def pack32 (c : Cfg) (N i j : Nat) : Word := BitVec.ofInt 32 (synth c N i j).1

/-- `PACK(i)`, the words of frame `i`; none for a pair that has no layout (41_packer R124). -/
def pack (c : Cfg) (N i : Nat) : Option (List Word) :=
  if (c.b, c.W) = (16, 16) then some ((List.range (c.C / 2)).map (pack16 c N i))
  else if (c.b, c.W) = (24, 32) then some ((List.range c.C).map (pack24 c N i))
  else if (c.b, c.W) = (32, 32) then some ((List.range c.C).map (pack32 c N i))
  else none

/-- Extraction: channel `j`'s sample from the words of a frame, read as a signed number (41_packer R125). -/
def extractSample (c : Cfg) (words : List Word) (j : Nat) : Int :=
  if (c.b, c.W) = (16, 16) then
    let word := words.getD (j / 2) 0
    if j % 2 = 0 then (word.extractLsb' 16 16).toInt else (word.extractLsb' 0 16).toInt
  else if (c.b, c.W) = (24, 32) then ((words.getD j 0).extractLsb' 8 24).toInt
  else (words.getD j 0).toInt

/-- The low part of channel `j`'s word in a (24, 32) frame (41_packer R125). -/
def extractLow (words : List Word) (j : Nat) : Byte := (words.getD j 0).extractLsb' 0 8

/-- The left and right slots of stereo frame `q` of a buffer given as its words, each slot of the channel width (41_packer R126). -/
def stereoFrame (c : Cfg) (buffer : Nat → Word) (q : Nat) : Nat × Nat :=
  if (c.b, c.W) = (16, 16) then (((buffer q).extractLsb' 16 16).toNat, ((buffer q).extractLsb' 0 16).toNat)
  else ((buffer (2 * q)).toNat, (buffer (2 * q + 1)).toNat)

/-- `ENG_FRAME`, enabled exactly in BUSY (41_packer R130): packs frame FIDX of the active configuration into FBUF, advances FIDX, and
enters READY with the last frame. Outside BUSY the engine takes no step (R131, log 10). The three faults are the step's own
preconditions, false in no reachable state (10_state R41, log 11). -/
def execEngFrame (s : State) : Host.Outcome State Fault Refusal :=
  if s.seq ≠ BUSY then .next s
  else if s.fpc.toNat ≤ s.fidx.toNat then .fault .frameOutOfRange
  else
    match legalCfg s.actl with
    | none => .fault .noLayout
    | some c =>
      match pack c s.fpc.toNat s.fidx.toNat with
      | none => .fault .noLayout
      | some words =>
        let k := s.fidx.toNat * wordsPerFrame c.C c.W
        if s.bufBytesMax < 4 * (k + wordsPerFrame c.C c.W) then .fault .outsideBuffer
        else
          let s1 := s.writeFbuf k words
          .next { s1 with fidx := s.fidx + 1, seq := if s.fidx + 1 = s.fpc then READY else s.seq }

end Sys2Proof.Machine
end

