-- ==== Sys2Proof/Machine/Cycle.lean ====
section
/-! DEFINITION. Cycle control: the commands and the write to STATUS (spec/43_cycle_control.md), the configuration checks of START
(spec/60_exceptions.md R201, R203), and RESET (spec/70_reset_and_hazards.md R220). -/

namespace Sys2Proof.Machine

/-- `CHECK_CONFIG`: the configuration, or the first check that fails (60_exceptions R201). -/
def checkConfig (ctrl : BitVec 7) (srate wfreq : Nat) : Except ErrCode Cfg :=
  match bitDepth (bdepField ctrl) with
  | none => .error .cfgBdep
  | some b =>
    match channelCount (chcntField ctrl) with
    | none => .error .cfgChcnt
    | some C =>
      match channelWidth (chwField ctrl) with
      | none => .error .cfgChw
      | some W =>
        if legalPair b W = false then .error .cfgWidth
        else if wfreq = 0 then .error .cfgWfreqZero
        else if srate / wfreq = 0 then .error .cfgNoFrames
        else if 2 ^ 32 ≤ srate * (C / 2) then .error .cfgWrateOvf
        else .ok ⟨b, C, W, modeField ctrl⟩

/-- What START finds: the geometry of the cycle to begin, or the first error in the order of 60_exceptions R204. -/
def startCheck (s : State) : Except ErrCode Geom :=
  if s.seq ≠ IDLE then .error .cmdStartState
  else
    match checkConfig s.ctrl s.srate.toNat s.wfreq.toNat with
    | .error e => .error e
    | .ok c =>
      let g := geom c.C c.W s.srate.toNat s.wfreq.toNat
      if s.bufBytesMax < g.blen then .error .alloc else .ok g

/-- The effect of an accepted START: the configuration and its geometry become active (43_cycle_control R171). -/
def State.beginCycle (s : State) (g : Geom) : State :=
  { s with
    actl := s.ctrl
    fpc := BitVec.ofNat 32 g.N
    bpf := BitVec.ofNat 32 g.bpf
    blen := BitVec.ofNat 32 g.blen
    tmult := BitVec.ofNat 32 g.tmult
    wrate := BitVec.ofNat 32 g.wrate
    fidx := 0
    seq := BUSY }

/-- CMD_NOP: no effect, in every state (43_cycle_control R170). -/
def execCmdNop (s : State) : Host.Outcome State Fault Refusal := .next s

/-- CMD_START: begins a cycle, or raises the first error and changes nothing else (43_cycle_control R171). -/
def execCmdStart (s : State) : Host.Outcome State Fault Refusal :=
  match startCheck s with
  | .error e => .next (s.raise e)
  | .ok g => .next (s.beginCycle g)

/-- CMD_RELEASE: ends the hand-off of a READY buffer (43_cycle_control R172). -/
def execCmdRelease (s : State) : Host.Outcome State Fault Refusal :=
  if s.seq ≠ READY then .next (s.raise .cmdReleaseState) else .next { s with seq := IDLE }

/-- CMD_INVALID: an error in every state (43_cycle_control R173). -/
def execCmdInvalid (_data : Word) (s : State) : Host.Outcome State Fault Refusal := .next (s.raise .cmdUnknown)

/-- WR_STATUS: write 1 to clear (43_cycle_control R174). -/
def execWrStatus (data : Word) (s : State) : Host.Outcome State Fault Refusal := .next (clearFlags data s)

/-- RESET: every register of the block 0, every word of FBUF unknown (70_reset_and_hazards R220). The capacity, the value the host was
last given, the count of free values and the schedule are not the block's, and stay (log 15). -/
def execReset (s : State) : Host.Outcome State Fault Refusal :=
  .next { State.reset with capCode := s.capCode, rdata := s.rdata, draws := s.draws, pending := s.pending }

end Sys2Proof.Machine
end

