-- ==== Sys2Proof/Machine/HostRegs.lean ====
section
/-! DEFINITION. The host's register and buffer accesses (spec/42_host_registers.md): one definition per row of the opcode table. -/

namespace Sys2Proof.Machine

/-- RD_CTRL (42_host_registers R140). -/
def execRdCtrl (s : State) : Host.Outcome State Fault Refusal := .next (s.deliver (s.ctrl.setWidth 32))

/-- WR_CTRL: `DATA[6:0]` is stored, whatever it codes (42_host_registers R141). -/
def execWrCtrl (data : Word) (s : State) : Host.Outcome State Fault Refusal := .next { s with ctrl := data.extractLsb' 0 7 }

/-- RD_SRATE (42_host_registers R142). -/
def execRdSrate (s : State) : Host.Outcome State Fault Refusal := .next (s.deliver s.srate)

/-- WR_SRATE (42_host_registers R143). -/
def execWrSrate (data : Word) (s : State) : Host.Outcome State Fault Refusal := .next { s with srate := data }

/-- RD_WFREQ (42_host_registers R144). -/
def execRdWfreq (s : State) : Host.Outcome State Fault Refusal := .next (s.deliver s.wfreq)

/-- WR_WFREQ (42_host_registers R145). -/
def execWrWfreq (data : Word) (s : State) : Host.Outcome State Fault Refusal := .next { s with wfreq := data }

/-- RD_CMD: CMD holds no state and reads 0 (42_host_registers R146). -/
def execRdCmd (s : State) : Host.Outcome State Fault Refusal := .next (s.deliver 0)

/-- RD_STATUS (42_host_registers R147). -/
def execRdStatus (s : State) : Host.Outcome State Fault Refusal := .next (s.deliver (statusWord s))

/-- RD_FPC (42_host_registers R148). -/
def execRdFpc (s : State) : Host.Outcome State Fault Refusal := .next (s.deliver s.fpc)

/-- RD_BPF (42_host_registers R149). -/
def execRdBpf (s : State) : Host.Outcome State Fault Refusal := .next (s.deliver s.bpf)

/-- RD_BLEN (42_host_registers R150). -/
def execRdBlen (s : State) : Host.Outcome State Fault Refusal := .next (s.deliver s.blen)

/-- RD_WRATE (42_host_registers R151). -/
def execRdWrate (s : State) : Host.Outcome State Fault Refusal := .next (s.deliver s.wrate)

/-- RD_TMULT (42_host_registers R152). -/
def execRdTmult (s : State) : Host.Outcome State Fault Refusal := .next (s.deliver s.tmult)

/-- RD_FIDX (42_host_registers R153). -/
def execRdFidx (s : State) : Host.Outcome State Fault Refusal := .next (s.deliver s.fidx)

/-- RD_ACTL (42_host_registers R154). -/
def execRdActl (s : State) : Host.Outcome State Fault Refusal := .next (s.deliver (s.actl.setWidth 32))

/-- WR_FPC: ignored (42_host_registers R155). -/
def execWrFpc (_data : Word) (s : State) : Host.Outcome State Fault Refusal := .next s

/-- WR_BPF: ignored (42_host_registers R156). -/
def execWrBpf (_data : Word) (s : State) : Host.Outcome State Fault Refusal := .next s

/-- WR_BLEN: ignored (42_host_registers R157). -/
def execWrBlen (_data : Word) (s : State) : Host.Outcome State Fault Refusal := .next s

/-- WR_WRATE: ignored (42_host_registers R158). -/
def execWrWrate (_data : Word) (s : State) : Host.Outcome State Fault Refusal := .next s

/-- WR_TMULT: ignored (42_host_registers R159). -/
def execWrTmult (_data : Word) (s : State) : Host.Outcome State Fault Refusal := .next s

/-- WR_FIDX: ignored (42_host_registers R160). -/
def execWrFidx (_data : Word) (s : State) : Host.Outcome State Fault Refusal := .next s

/-- WR_ACTL: ignored (42_host_registers R161). -/
def execWrActl (_data : Word) (s : State) : Host.Outcome State Fault Refusal := .next s

/-- RD_FBUF: 0 at and beyond the capacity; a free value in BUSY and for an unknown word; else the word (42_host_registers R162). -/
def execRdFbuf (k : WordIndex) (s : State) : Host.Outcome State Fault Refusal :=
  .next <|
    if s.bufBytesMax / 4 ≤ k.toNat then s.deliver 0
    else if s.seq = BUSY then s.deliverDraw
    else
      match s.fbufWord k.toNat with
      | none => s.deliverDraw
      | some v => s.deliver v

/-- WR_FBUF: ignored (42_host_registers R163). -/
def execWrFbuf (_k : WordIndex) (_data : Word) (s : State) : Host.Outcome State Fault Refusal := .next s

/-- RD_UNMAPPED: 0 (42_host_registers R164). -/
def execRdUnmapped (_k : WordIndex) (s : State) : Host.Outcome State Fault Refusal := .next (s.deliver 0)

/-- WR_UNMAPPED: ignored (42_host_registers R165). -/
def execWrUnmapped (_k : WordIndex) (_data : Word) (s : State) : Host.Outcome State Fault Refusal := .next s

end Sys2Proof.Machine
end

