-- ==== Sys2Proof/Machine/Dispatch.lean ====
section
/-! DEFINITION. The meaning of every operation: one arm per row of spec/opcode_table.json. -/

namespace Sys2Proof.Machine

def exec (i : Instr) (s : State) : Host.Outcome State Fault Refusal :=
  match i with
  | .rdCtrl => Sys2Proof.Machine.execRdCtrl s
  | .wrCtrl data => Sys2Proof.Machine.execWrCtrl data s
  | .rdSrate => Sys2Proof.Machine.execRdSrate s
  | .wrSrate data => Sys2Proof.Machine.execWrSrate data s
  | .rdWfreq => Sys2Proof.Machine.execRdWfreq s
  | .wrWfreq data => Sys2Proof.Machine.execWrWfreq data s
  | .rdCmd => Sys2Proof.Machine.execRdCmd s
  | .cmdNop => Sys2Proof.Machine.execCmdNop s
  | .cmdStart => Sys2Proof.Machine.execCmdStart s
  | .cmdRelease => Sys2Proof.Machine.execCmdRelease s
  | .cmdInvalid data => Sys2Proof.Machine.execCmdInvalid data s
  | .rdStatus => Sys2Proof.Machine.execRdStatus s
  | .wrStatus data => Sys2Proof.Machine.execWrStatus data s
  | .rdFpc => Sys2Proof.Machine.execRdFpc s
  | .wrFpc data => Sys2Proof.Machine.execWrFpc data s
  | .rdBpf => Sys2Proof.Machine.execRdBpf s
  | .wrBpf data => Sys2Proof.Machine.execWrBpf data s
  | .rdBlen => Sys2Proof.Machine.execRdBlen s
  | .wrBlen data => Sys2Proof.Machine.execWrBlen data s
  | .rdWrate => Sys2Proof.Machine.execRdWrate s
  | .wrWrate data => Sys2Proof.Machine.execWrWrate data s
  | .rdTmult => Sys2Proof.Machine.execRdTmult s
  | .wrTmult data => Sys2Proof.Machine.execWrTmult data s
  | .rdFidx => Sys2Proof.Machine.execRdFidx s
  | .wrFidx data => Sys2Proof.Machine.execWrFidx data s
  | .rdActl => Sys2Proof.Machine.execRdActl s
  | .wrActl data => Sys2Proof.Machine.execWrActl data s
  | .rdFbuf k => Sys2Proof.Machine.execRdFbuf k s
  | .wrFbuf k data => Sys2Proof.Machine.execWrFbuf k data s
  | .rdUnmapped k => Sys2Proof.Machine.execRdUnmapped k s
  | .wrUnmapped k data => Sys2Proof.Machine.execWrUnmapped k data s
  | .engFrame => Sys2Proof.Machine.execEngFrame s
  | .reset => Sys2Proof.Machine.execReset s

end Sys2Proof.Machine
end

