-- ==== Sys2Proof/Machine/Schedule.lean ====
section
/-! DEFINITION. Which agent moves next (spec/10_state.md R20, spec/20_memory.md R59): the schedule the environment has handed the block,
and the operation its next event stands for. -/

namespace Sys2Proof.Machine

/-- The refusal of a transaction that the decoder gives no meaning (20_memory R56, R57). -/
def refusalOf : DecodeRefusal → Refusal
  | .misaligned => .misaligned
  | .width => .width

/-- The operation of the next step. With nothing scheduled, the engine moves where it is enabled, and otherwise no agent does: none
(70_reset_and_hazards R232, log 2). -/
def nextOperation (s : State) : Except Refusal (Option Instr) :=
  match s.pending with
  | [] => .ok (if s.seq = BUSY then some .engFrame else none)
  | .engine :: _ => .ok (some .engFrame)
  | .reset :: _ => .ok (some .reset)
  | .access bytes ht :: _ =>
    match decodeAccess bytes ht with
    | .error r => .error (refusalOf r)
    | .ok i => .ok (some i)

/-- The state once its next event is taken off the schedule. -/
def State.advance (s : State) : State := { s with pending := s.pending.tail }

/-- The state with a host transaction scheduled as its very next event (log 3). -/
def State.schedule (s : State) (ht : HT) : State := { s with pending := .access 4 ht :: s.pending }

end Sys2Proof.Machine
end

