-- ==== Sys2Proof/Machine/Step.lean ====
section
/-! DEFINITION. One step of the machine: the next event of the schedule, atomically (spec/20_memory.md R59). -/

namespace Sys2Proof.Machine

/-- One step of one agent. A transaction without a meaning is refused; where no agent has anything to do, nothing changes (log 2). -/
def step (s : State) : Host.Outcome State Fault Refusal :=
  match nextOperation s with
  | .error r => .refused r
  | .ok none => .next s
  | .ok (some i) => exec i s.advance

/-- `s` with the transaction whose bits are `w` as its next event; an HT has bits 64..0 (30_encoding R70, logs 3, 12). -/
def State.withFetchWord (s : State) (_nbits w : Nat) : State := s.schedule (BitVec.ofNat 65 w)

end Sys2Proof.Machine
end

