-- ==== Sys2Proof/Machine/Asm.lean ====
section
/-! DEFINITION. The lines of a host program and the pseudo-instructions (spec/30_encoding.md R78, R79), as abstract syntax: each line is
one host transaction. Labels, comments and host-side control flow make no transaction (R78) and are not the block's (log 14). -/

namespace Sys2Proof.Machine

/-- The registers by name (30_encoding R78). -/
inductive RegName where
  | ctrl
  | srate
  | wfreq
  | cmd
  | status
  | fpc
  | bpf
  | blen
  | wrate
  | tmult
  | fidx
  | actl
  deriving DecidableEq, Repr

/-- The offset of a register (10_state R23). -/
def regAddr : RegName → BitVec 32
  | .ctrl => 0x00
  | .srate => 0x04
  | .wfreq => 0x08
  | .cmd => 0x0C
  | .status => 0x10
  | .fpc => 0x14
  | .bpf => 0x18
  | .blen => 0x1C
  | .wrate => 0x20
  | .tmult => 0x24
  | .fidx => 0x28
  | .actl => 0x2C

/-- A line of a host program that makes a transaction (30_encoding R78, R79). -/
inductive AsmLine where
  | rd (r : RegName)
  | wr (r : RegName) (imm : Word)
  | rdFbuf (k : WordIndex)
  | rdRaw (addr : BitVec 32)
  | wrRaw (addr : BitVec 32) (imm : Word)
  | cmdNop
  | cmdStart
  | cmdRelease
  | w1c (mask : Word)
  /-- `CFG`, by its field codes: BDEP, CHCNT, CHW and MODE. -/
  | cfg (bdep chcnt chw : BitVec 2) (diag : Bool)
  /-- The read in `WAIT_NOT_BUSY`; the loop around it is the host's. -/
  | waitPoll
  deriving DecidableEq, Repr

/-- The CTRL value with the given field codes (30_encoding R76). -/
def ctrlOf (bdep chcnt chw : BitVec 2) (diag : Bool) : BitVec 7 := BitVec.ofBool diag ++ chw ++ chcnt ++ bdep

/-- The transaction a line makes (30_encoding R78, R79). -/
def asmWord : AsmLine → HT
  | .rd r => transaction false (regAddr r) 0
  | .wr r imm => transaction true (regAddr r) imm
  | .rdFbuf k => transaction false (windowAddr k) 0
  | .rdRaw addr => transaction false addr 0
  | .wrRaw addr imm => transaction true addr imm
  | .cmdNop => transaction true (regAddr .cmd) 0
  | .cmdStart => transaction true (regAddr .cmd) 1
  | .cmdRelease => transaction true (regAddr .cmd) 2
  | .w1c mask => transaction true (regAddr .status) mask
  | .cfg bdep chcnt chw diag => transaction true (regAddr .ctrl) ((ctrlOf bdep chcnt chw diag).setWidth 32)
  | .waitPoll => transaction false (regAddr .status) 0

end Sys2Proof.Machine
end

