-- ==== Sys2Proof/Safety.lean ====
section
/-! DEFINITION. The terms claims are made in: the invariant of the block (spec/10_state.md R41 and the rules it names), the words of a
whole cycle and the run of the engine through it (spec/41_packer.md R131), and the operations that only read. A run is safe where no
step faults; the engine cannot fail (spec/41_packer.md R130), so the invariant rules the model's faults out. -/

namespace Sys2Proof.Machine

/-- The first `n` frames of the active configuration lie in FBUF as the packer gives them (10_state R41 item 3). -/
def State.holdsFrames (s : State) (n : Nat) : Prop :=
  ∀ c, legalCfg s.actl = some c → ∀ i, i < n → ∀ words, pack c s.fpc.toNat i = some words →
    ∀ w, w < words.length → s.fbufWord (i * wordsPerFrame c.C c.W + w) = words[w]?

/-- What an accepted START leaves in the active registers and no other operation changes (10_state R41 item 5); the SRATE and WFREQ of
that START are not kept, and are said to exist (log 16). -/
def State.activeOk (s : State) : Prop :=
  ∃ c, legalCfg s.actl = some c ∧ s.bpf.toNat = c.C * c.W / 8 ∧ s.blen.toNat = s.fpc.toNat * (c.C * c.W / 8) ∧
    s.blen.toNat ≤ s.bufBytesMax ∧ s.tmult.toNat = c.C / 2 ∧
    ∃ srate wfreq : Word, wfreq ≠ 0 ∧ s.fpc.toNat = srate.toNat / wfreq.toNat ∧ s.wrate.toNat = srate.toNat * (c.C / 2)

/-- The invariant of the block (10_state R41), with the form of memory (log 7). -/
structure State.Inv (s : State) : Prop where
  /-- Item 1: STATE is never 0b11. -/
  seq_legal : s.seq = IDLE ∨ s.seq = BUSY ∨ s.seq = READY
  /-- Item 2. -/
  busy : s.seq = BUSY → 1 ≤ s.fpc.toNat ∧ s.fidx.toNat < s.fpc.toNat
  /-- Item 3, the count. -/
  ready : s.seq = READY → s.fidx = s.fpc ∧ 1 ≤ s.fpc.toNat
  /-- Item 3, the words, which grow frame by frame in BUSY. -/
  frames : s.seq ≠ IDLE → s.holdsFrames s.fidx.toNat
  /-- FIDX is left at FPC when the cycle is complete and unchanged by RELEASE (10_state R39). -/
  idle : s.seq = IDLE → s.fidx = s.fpc
  /-- Item 4. -/
  unstarted : s.fpc = 0 → s.bpf = 0 ∧ s.blen = 0 ∧ s.wrate = 0 ∧ s.tmult = 0 ∧ s.fidx = 0 ∧ s.actl = 0 ∧ s.seq = IDLE
  /-- Item 5. -/
  started : s.fpc ≠ 0 → s.activeOk
  /-- Item 6. -/
  errors : s.ecode = 0 ↔ s.cfgerr = false ∧ s.allocerr = false ∧ s.cmderr = false
  /-- The codes 0xC to 0xF are never used (60_exceptions R200). -/
  codes : s.ecode.toNat ≤ 0xB
  /-- FBUF is in canonical form (log 7). -/
  mem_wf : s.mem.wf
  /-- FBUF has no byte outside its capacity (10_state R40, 20_memory R52). -/
  mem_inside : ∀ cell, cell ∈ s.mem → fbufBase ≤ cell.1 ∧ cell.1 < fbufBase + s.bufBytesMax

/-- The words of a cycle: `PACK(0) ++ PACK(1) ++ ... ++ PACK(N - 1)` (41_packer R131). -/
def cycleWords (c : Cfg) (N : Nat) : List Word := (List.range N).flatMap fun i => (pack c N i).getD []

/-- `n` engine steps, stopping where one does not complete. -/
def engineSteps : Nat → State → Host.Outcome State Fault Refusal
  | 0, s => .next s
  | n + 1, s =>
    match exec .engFrame s with
    | .next t => engineSteps n t
    | .fault f => .fault f
    | .refused r => .refused r

/-- The reads of 42_host_registers. -/
def isRead : Instr → Bool
  | .rdCtrl | .rdSrate | .rdWfreq | .rdCmd | .rdStatus | .rdFpc | .rdBpf | .rdBlen | .rdWrate | .rdTmult | .rdFidx | .rdActl => true
  | .rdFbuf _ | .rdUnmapped _ => true
  | .wrCtrl _ | .wrSrate _ | .wrWfreq _ | .wrStatus _ => false
  | .wrFpc _ | .wrBpf _ | .wrBlen _ | .wrWrate _ | .wrTmult _ | .wrFidx _ | .wrActl _ => false
  | .cmdNop | .cmdStart | .cmdRelease | .cmdInvalid _ => false
  | .wrFbuf _ _ | .wrUnmapped _ _ => false
  | .engFrame | .reset => false

/-- The slot of channel `j` in frame `i`, a number of the channel width (41_packer R122 to R124, R126). -/
def slotOf (c : Cfg) (N i j : Nat) : Nat :=
  if c.b = 16 then (BitVec.ofInt 16 (synth c N i j).1).toNat
  else if c.b = 24 then (BitVec.ofInt 24 (synth c N i j).1).toNat * 256 + (synth c N i j).2
  else (BitVec.ofInt 32 (synth c N i j).1).toNat

end Sys2Proof.Machine
end

