-- ==== Sys2Proof/Certificates/Slice0/Obligations.lean ====
section
/-! DEFINITION. The statements for the provers. Each docstring names the rule of spec/ it formalises; a statement that rests on a
convention of the model names its log entry. -/

open Sys2Proof Sys2Proof.Machine

/-! ### Encoding -/

/-- Words written out from the decoding examples of 95_test_vectors V-DE-1 and P1 decode to the operations given there. -/
def Obligations.WordsOfTheSpecDecode : Prop :=
  decode 0x10000000C00000000#65 = .ok .cmdNop ∧
  decode 0x10000000C00000001#65 = .ok .cmdStart ∧
  decode 0x10000000C00000002#65 = .ok .cmdRelease ∧
  decode 0x10000000C00000003#65 = .ok (.cmdInvalid 3) ∧
  decode 0x10000000C80000001#65 = .ok (.cmdInvalid 0x80000001) ∧
  decode 0x00000000C00000001#65 = .ok .rdCmd ∧
  decode 0x100000010FFFFFFFF#65 = .ok (.wrStatus 0xFFFFFFFF) ∧
  decode 0x00000003000000000#65 = .ok (.rdUnmapped 0xC) ∧
  decode 0x10000010000000001#65 = .ok (.wrUnmapped 0x40 1) ∧
  decode 0x07FFFFFFC00000000#65 = .ok (.rdUnmapped 0x1FFFFFFF) ∧
  decode 0x08000002400000000#65 = .ok (.rdFbuf 9) ∧
  decode 0x1FFFFFFFC00000000#65 = .ok (.wrFbuf 0x1FFFFFFF 0) ∧
  decode 0x00000000200000000#65 = .error .misaligned ∧
  decode 0x18000000100000000#65 = .error .misaligned ∧
  decode 0x1000000040000AC44#65 = .ok (.wrSrate 44100)

/-- Every well-formed operation that has an encoding is what its transaction decodes to, at every value of its operands (30_encoding
R70 to R72). -/
def Obligations.DecodeOfEncodeIsTheOperation : Prop :=
  ∀ i w, WellFormed i = true → encode i = some w → decode w = .ok i

/-- Whatever decodes is well-formed and encodes back to the transaction it came from, but for the ignored `DATA` of a read, which an
encoder writes as 0 (30_encoding R70): no bit of an encoding is dropped. -/
def Obligations.EncodeOfDecodeIsTheTransaction : Prop :=
  ∀ ht i, decode ht = .ok i →
    WellFormed i = true ∧ encode i = some (transaction (isWrite ht) (addrOf ht) (if isWrite ht then dataOf ht else 0))

/-- A transaction is refused as misaligned exactly where `ADDR[1:0]` is not 0 (20_memory R56, 30_encoding R71), and exactly ENG_FRAME and
RESET have no encoding (30_encoding R73). -/
def Obligations.OnlyMisalignedTransactionsAreRefused : Prop :=
  (∀ ht, (∃ r, decode ht = .error r) ↔ ht.extractLsb' 32 2 ≠ 0#2) ∧ (∀ ht r, decode ht = .error r → r = .misaligned) ∧
  (∀ i, encode i = none ↔ i = .engFrame ∨ i = .reset)

/-- The field-by-field decoder agrees with the procedure of 30_encoding R71 over the opcode table of R72, on every transaction. -/
def Obligations.DecodeFollowsTheOpcodeTable : Prop :=
  ∀ ht, decodeByTable ht = (decode ht).toOption

/-- Every aligned transaction matches exactly one row of greatest mask weight, and decodes to that row (30_encoding R71). -/
def Obligations.ExactlyOneHeaviestRow : Prop :=
  ∀ ht : HT, ht.extractLsb' 32 2 = 0#2 → ∃ r, r ∈ opcodeRows ∧ r.accepts ht = true ∧ decode ht = .ok (r.build ht) ∧
    ∀ r', r' ∈ opcodeRows → r'.accepts ht = true → r'.mnemonic ≠ r.mnemonic → maskWeight r'.mask < maskWeight r.mask

/-- The lines and pseudo-instructions of a host program stand for the operations of 30_encoding R78 and R79: `RD` and `WR` of each of
the twelve registers, `WR CMD` by its command code, `RD FBUF[k]`, the raw lines at any address (an unaligned one is refused, 20_memory
R56), the pseudo-instructions by their expansions, and `CFG` with the value of its field codes (R76). -/
def Obligations.AssemblerLinesDecode : Prop :=
  (∀ line ∈ [(RegName.ctrl, Instr.rdCtrl), (.srate, .rdSrate), (.wfreq, .rdWfreq), (.cmd, .rdCmd), (.status, .rdStatus),
      (.fpc, .rdFpc), (.bpf, .rdBpf), (.blen, .rdBlen), (.wrate, .rdWrate), (.tmult, .rdTmult), (.fidx, .rdFidx), (.actl, .rdActl)],
    decode (asmWord (.rd line.1)) = .ok line.2) ∧
  (∀ imm, ∀ line ∈ [(RegName.ctrl, Instr.wrCtrl imm), (.srate, .wrSrate imm), (.wfreq, .wrWfreq imm), (.status, .wrStatus imm),
      (.fpc, .wrFpc imm), (.bpf, .wrBpf imm), (.blen, .wrBlen imm), (.wrate, .wrWrate imm), (.tmult, .wrTmult imm),
      (.fidx, .wrFidx imm), (.actl, .wrActl imm)],
    decode (asmWord (.wr line.1 imm)) = .ok line.2) ∧
  decode (asmWord (.wr .cmd 0)) = .ok .cmdNop ∧ decode (asmWord (.wr .cmd 1)) = .ok .cmdStart ∧
  decode (asmWord (.wr .cmd 2)) = .ok .cmdRelease ∧
  (∀ imm : Word, 2 < imm.toNat → decode (asmWord (.wr .cmd imm)) = .ok (.cmdInvalid imm)) ∧
  (∀ k, decode (asmWord (.rdFbuf k)) = .ok (.rdFbuf k)) ∧
  (∀ addr imm, isWrite (asmWord (.rdRaw addr)) = false ∧ addrOf (asmWord (.rdRaw addr)) = addr ∧ dataOf (asmWord (.rdRaw addr)) = 0 ∧
    isWrite (asmWord (.wrRaw addr imm)) = true ∧ addrOf (asmWord (.wrRaw addr imm)) = addr ∧
    dataOf (asmWord (.wrRaw addr imm)) = imm) ∧
  (∀ r imm, asmWord (.rdRaw (regAddr r)) = asmWord (.rd r) ∧ asmWord (.wrRaw (regAddr r) imm) = asmWord (.wr r imm)) ∧
  (∀ k imm, decode (asmWord (.rdRaw (windowAddr k))) = .ok (.rdFbuf k) ∧
    decode (asmWord (.wrRaw (windowAddr k) imm)) = .ok (.wrFbuf k imm) ∧
    (12 ≤ k.toNat → decode (asmWord (.rdRaw (lowAddr k))) = .ok (.rdUnmapped k) ∧
      decode (asmWord (.wrRaw (lowAddr k) imm)) = .ok (.wrUnmapped k imm))) ∧
  (∀ addr imm, addr.extractLsb' 0 2 ≠ 0#2 → decode (asmWord (.rdRaw addr)) = .error .misaligned ∧
    decode (asmWord (.wrRaw addr imm)) = .error .misaligned) ∧
  decode (asmWord .cmdNop) = .ok .cmdNop ∧ decode (asmWord .cmdStart) = .ok .cmdStart ∧
  decode (asmWord .cmdRelease) = .ok .cmdRelease ∧ decode (asmWord .waitPoll) = .ok .rdStatus ∧
  (∀ mask, decode (asmWord (.w1c mask)) = .ok (.wrStatus mask)) ∧
  (∀ bdep chcnt chw diag, ∃ imm : Word, decode (asmWord (.cfg bdep chcnt chw diag)) = .ok (.wrCtrl imm) ∧
    imm.toNat = bdep.toNat + 4 * chcnt.toNat + 16 * chw.toNat + 64 * diag.toNat ∧
    bdepField (imm.extractLsb' 0 7) = bdep ∧ chcntField (imm.extractLsb' 0 7) = chcnt ∧ chwField (imm.extractLsb' 0 7) = chw ∧
    modeField (imm.extractLsb' 0 7) = diag)

/-! ### The step -/

/-- A scheduled transaction of 4 bytes that decodes is run: the step is the operation, on the state with that event taken off the
schedule. So is the one that `withFetchWord` places (logs 1, 3). -/
def Obligations.StepRunsTheDecodedOperation : Prop :=
  (∀ s ht rest i, s.pending = .access 4 ht :: rest → decode ht = .ok i → step s = exec i { s with pending := rest }) ∧
  (∀ s nbits w i, decodeTableWord nbits w = some i → step (s.withFetchWord nbits w) = exec i s)

/-- The step of an engine move, of a reset, and with nothing scheduled: then the engine moves in BUSY, and otherwise nothing changes
(logs 1, 2). -/
def Obligations.StepOfTheOtherAgents : Prop :=
  (∀ s rest, s.pending = .engine :: rest → step s = exec .engFrame { s with pending := rest }) ∧
  (∀ s rest, s.pending = .reset :: rest → step s = exec .reset { s with pending := rest }) ∧
  (∀ s, s.pending = [] → s.seq = BUSY → step s = exec .engFrame s) ∧
  (∀ s, s.pending = [] → s.seq ≠ BUSY → step s = .next s)

/-- A transaction with `ADDR[1:0]` not 0 is refused, in every state (20_memory R56). -/
def Obligations.MisalignedTransactionIsRefused : Prop :=
  ∀ s ht rest, s.pending = .access 4 ht :: rest → ht.extractLsb' 32 2 ≠ 0#2 → step s = .refused .misaligned

/-- A transaction of another width than 4 bytes is refused for its width, in every state (20_memory R57). That the width decides where
the address is misaligned too is the model's order of the two refusals (log 9). -/
def Obligations.OtherWidthsAreRefused : Prop :=
  ∀ s bytes ht rest, s.pending = .access bytes ht :: rest → bytes ≠ 4 → step s = .refused .width

/-- No operation touches the schedule or the capacity: the parameter `BUF_BYTES_MAX` is constant (00_scope R7, logs 1, 4). -/
def Obligations.CapacityAndScheduleAreKept : Prop :=
  ∀ i s t, exec i s = .next t → t.capCode = s.capCode ∧ t.pending = s.pending

/-- Every host transaction completes in every state, and so does RESET: no access is checked and none can stop the block
(60_exceptions R210, R205). -/
def Obligations.EveryHostOperationCompletes : Prop :=
  ∀ i s, i ≠ .engFrame → ∃ t, exec i s = .next t

/-! ### Reset -/

/-- RESET, in every state: every register of the block 0, STATE IDLE, no flag, every word of FBUF unknown (70_reset R220). -/
def Obligations.ResetOperation : Prop :=
  ∀ s, ∃ t, exec .reset s = .next t ∧ t.ctrl = 0 ∧ t.srate = 0 ∧ t.wfreq = 0 ∧ statusWord t = 0 ∧ t.seq = IDLE ∧
    t.cfgerr = false ∧ t.allocerr = false ∧ t.cmderr = false ∧ t.ecode = 0 ∧
    t.fpc = 0 ∧ t.bpf = 0 ∧ t.blen = 0 ∧ t.wrate = 0 ∧ t.tmult = 0 ∧ t.fidx = 0 ∧ t.actl = 0 ∧
    (∀ a, t.mem.readByte a = none) ∧ ∀ k, t.fbufWord k = none

/-- After reset every register reads 0, a START is rejected with CFG_WFREQ_ZERO, STATUS 0x804 (70_reset R220, 95 V-RS-1), and every
FBUF word below the capacity reads as a free value. -/
def Obligations.TheResetStateAsTheHostSeesIt : Prop :=
  (∀ i, i ∈ [Instr.rdCtrl, .rdSrate, .rdWfreq, .rdCmd, .rdStatus, .rdFpc, .rdBpf, .rdBlen, .rdWrate, .rdTmult, .rdFidx, .rdActl] →
    exec i State.reset = .next { State.reset with rdata := 0 }) ∧
  exec .cmdStart State.reset = .next { State.reset with cfgerr := true, ecode := 8 } ∧
  statusWord { State.reset with cfgerr := true, ecode := 8 } = 0x804 ∧
  (∀ k : WordIndex, k.toNat < State.reset.bufBytesMax / 4 →
    exec (.rdFbuf k) State.reset = .next { State.reset with rdata := Config.draw 0, draws := 1 })

/-! ### Host registers and buffer -/

/-- Each register read returns its register and changes nothing of the block (42_host_registers R140, R142, R144, R146 to R154). -/
def Obligations.RegisterReads : Prop :=
  ∀ s, exec .rdCtrl s = .next { s with rdata := s.ctrl.setWidth 32 } ∧
    exec .rdSrate s = .next { s with rdata := s.srate } ∧
    exec .rdWfreq s = .next { s with rdata := s.wfreq } ∧
    exec .rdCmd s = .next { s with rdata := 0 } ∧
    exec .rdStatus s = .next { s with
      rdata := 0#20 ++ s.ecode ++ 0#3 ++ BitVec.ofBool s.cmderr ++ BitVec.ofBool s.allocerr ++ BitVec.ofBool s.cfgerr ++ s.seq } ∧
    exec .rdFpc s = .next { s with rdata := s.fpc } ∧
    exec .rdBpf s = .next { s with rdata := s.bpf } ∧
    exec .rdBlen s = .next { s with rdata := s.blen } ∧
    exec .rdWrate s = .next { s with rdata := s.wrate } ∧
    exec .rdTmult s = .next { s with rdata := s.tmult } ∧
    exec .rdFidx s = .next { s with rdata := s.fidx } ∧
    exec .rdActl s = .next { s with rdata := s.actl.setWidth 32 }

/-- RD_FBUF: 0 at and beyond the capacity; any value in BUSY and for a word not written since reset; else the word. No flag, no other
effect (42_host_registers R162). The free value is `Config.draw` at the count of draws, which this statement holds for whatever it is
(log 6). -/
def Obligations.FbufReadReturns : Prop :=
  ∀ s (k : WordIndex),
    (s.bufBytesMax / 4 ≤ k.toNat → exec (.rdFbuf k) s = .next { s with rdata := 0 }) ∧
    (k.toNat < s.bufBytesMax / 4 → s.seq = BUSY →
      exec (.rdFbuf k) s = .next { s with rdata := Config.draw s.draws, draws := s.draws + 1 }) ∧
    (k.toNat < s.bufBytesMax / 4 → s.seq ≠ BUSY → s.fbufWord k.toNat = none →
      exec (.rdFbuf k) s = .next { s with rdata := Config.draw s.draws, draws := s.draws + 1 }) ∧
    (∀ v, k.toNat < s.bufBytesMax / 4 → s.seq ≠ BUSY → s.fbufWord k.toNat = some v →
      exec (.rdFbuf k) s = .next { s with rdata := v })

/-- A read changes no state of the block, at any address (20_memory R58). -/
def Obligations.ReadsChangeNothingOfTheBlock : Prop :=
  ∀ i s, isRead i = true → ∃ v n, exec i s = .next { s with rdata := v, draws := n }

/-- Unmapped and reserved addresses read 0 and ignore writes (42_host_registers R164, R165; 20_memory R51): the operations, and the
addresses from 0x30 up to 0x7FFF_FFFC that decode to them. -/
def Obligations.UnmappedAddressesReadZeroAndIgnoreWrites : Prop :=
  ∀ s (k : WordIndex) data, exec (.rdUnmapped k) s = .next { s with rdata := 0 } ∧ exec (.wrUnmapped k data) s = .next s ∧
    (12 ≤ k.toNat → (lowAddr k).toNat = 4 * k.toNat ∧ decode (transaction false (lowAddr k) data) = .ok (.rdUnmapped k) ∧
      decode (transaction true (lowAddr k) data) = .ok (.wrUnmapped k data))

/-- A write to a read-only register or to the FBUF window is ignored and sets no flag, in every state (42_host_registers R155 to R161,
R163). -/
def Obligations.WritesToReadOnlyPlacesAreIgnored : Prop :=
  ∀ s data (k : WordIndex), exec (.wrFpc data) s = .next s ∧ exec (.wrBpf data) s = .next s ∧ exec (.wrBlen data) s = .next s ∧
    exec (.wrWrate data) s = .next s ∧ exec (.wrTmult data) s = .next s ∧ exec (.wrFidx data) s = .next s ∧
    exec (.wrActl data) s = .next s ∧ exec (.wrFbuf k data) s = .next s

/-- The three configuration writes, in every state: `DATA[6:0]` to CTRL whatever it codes, all of `DATA` to SRATE and to WFREQ, and
nothing else (42_host_registers R141, R143, R145). -/
def Obligations.ConfigurationWrites : Prop :=
  ∀ s data, exec (.wrCtrl data) s = .next { s with ctrl := data.extractLsb' 0 7 } ∧
    exec (.wrSrate data) s = .next { s with srate := data } ∧ exec (.wrWfreq data) s = .next { s with wfreq := data }

/-- A configuration register reads back what was written right before, the reserved bits of CTRL as 0 (10_state R25, 70_reset R233). -/
def Obligations.ConfigurationReadsBackAsWritten : Prop :=
  ∀ s data,
    (∃ t u, exec (.wrCtrl data) s = .next t ∧ exec .rdCtrl t = .next u ∧ u.rdata = data &&& 0x7F#32) ∧
    (∃ t u, exec (.wrSrate data) s = .next t ∧ exec .rdSrate t = .next u ∧ u.rdata = data) ∧
    (∃ t u, exec (.wrWfreq data) s = .next t ∧ exec .rdWfreq t = .next u ∧ u.rdata = data)

/-! ### Errors and commands -/

/-- The codes and flags of the error causes (60_exceptions R200). -/
def Obligations.ErrorCodesAndTheirFlags : Prop :=
  ([ErrCode.cmdStartState, .cmdReleaseState, .cmdUnknown, .cfgBdep, .cfgChcnt, .cfgChw, .cfgWidth, .cfgWfreqZero, .cfgNoFrames,
    .cfgWrateOvf, .alloc].map fun e => (errCodeBits e, errFlagOf e)) =
  [(1, .cmderr), (2, .cmderr), (3, .cmderr), (4, .cfgerr), (5, .cfgerr), (6, .cfgerr), (7, .cfgerr), (8, .cfgerr), (9, .cfgerr),
    (0xA, .cfgerr), (0xB, .allocerr)]

/-- `raise Error(code)` sets the flag of the code and ECODE; a flag already 1 stays 1, ECODE is overwritten, and nothing else changes
(60_exceptions R202). -/
def Obligations.RaiseSetsItsFlagAndCodeOnly : Prop :=
  ∀ (s : State) e, s.raise e = { s with
    cfgerr := s.cfgerr || (errFlagOf e == .cfgerr)
    allocerr := s.allocerr || (errFlagOf e == .allocerr)
    cmderr := s.cmderr || (errFlagOf e == .cmderr)
    ecode := errCodeBits e }

/-- CMD_NOP has no effect in any state (43_cycle_control R170). -/
def Obligations.NopCommandHasNoEffect : Prop := ∀ s, exec .cmdNop s = .next s

/-- CMD_START outside IDLE, and then the configuration checks in their order, each with the code it raises; the first that fails ends
START with that error and nothing else (60_exceptions R201, R203, R204; 43_cycle_control R171). `C` and `W` are the channel count and
width of the field codes. -/
def Obligations.RejectedStartReportsTheFirstError : Prop :=
  ∀ s,
    (s.seq ≠ IDLE → exec .cmdStart s = .next (s.raise .cmdStartState)) ∧
    (s.seq = IDLE → bdepField s.ctrl = 3 → exec .cmdStart s = .next (s.raise .cfgBdep)) ∧
    (s.seq = IDLE → bdepField s.ctrl ≠ 3 → chcntField s.ctrl = 3 → exec .cmdStart s = .next (s.raise .cfgChcnt)) ∧
    (s.seq = IDLE → bdepField s.ctrl ≠ 3 → chcntField s.ctrl ≠ 3 → chwField s.ctrl = 3 →
      exec .cmdStart s = .next (s.raise .cfgChw)) ∧
    (∀ c, s.seq = IDLE → decodeCfg s.ctrl = some c →
      ((c.b, c.W) ≠ (16, 16) → (c.b, c.W) ≠ (24, 32) → (c.b, c.W) ≠ (32, 32) → exec .cmdStart s = .next (s.raise .cfgWidth)) ∧
      ((c.b, c.W) = (16, 16) ∨ (c.b, c.W) = (24, 32) ∨ (c.b, c.W) = (32, 32) →
        (s.wfreq = 0 → exec .cmdStart s = .next (s.raise .cfgWfreqZero)) ∧
        (s.wfreq ≠ 0 → s.srate.toNat < s.wfreq.toNat → exec .cmdStart s = .next (s.raise .cfgNoFrames)) ∧
        (s.wfreq ≠ 0 → s.wfreq.toNat ≤ s.srate.toNat → 2 ^ 32 ≤ s.srate.toNat * (c.C / 2) →
          exec .cmdStart s = .next (s.raise .cfgWrateOvf)) ∧
        (s.wfreq ≠ 0 → s.wfreq.toNat ≤ s.srate.toNat → s.srate.toNat * (c.C / 2) < 2 ^ 32 →
          s.bufBytesMax < s.srate.toNat / s.wfreq.toNat * (c.C * c.W / 8) → exec .cmdStart s = .next (s.raise .alloc))))

/-- CMD_START where every check passes: the configuration and its geometry become active, FIDX is 0, STATE is BUSY, the numbers fit
their registers, and nothing else changes; earlier error flags stay (43_cycle_control R171, 41_packer R120). -/
def Obligations.AcceptedStartBeginsTheCycle : Prop :=
  ∀ s c, s.seq = IDLE → decodeCfg s.ctrl = some c →
    ((c.b, c.W) = (16, 16) ∨ (c.b, c.W) = (24, 32) ∨ (c.b, c.W) = (32, 32)) →
    s.wfreq ≠ 0 → s.wfreq.toNat ≤ s.srate.toNat → s.srate.toNat * (c.C / 2) < 2 ^ 32 →
    s.srate.toNat / s.wfreq.toNat * (c.C * c.W / 8) ≤ s.bufBytesMax →
    ∃ t, exec .cmdStart s = .next t ∧ t.actl = s.ctrl ∧ t.fpc.toNat = s.srate.toNat / s.wfreq.toNat ∧
      t.bpf.toNat = c.C * c.W / 8 ∧ t.blen.toNat = s.srate.toNat / s.wfreq.toNat * (c.C * c.W / 8) ∧ t.tmult.toNat = c.C / 2 ∧
      t.wrate.toNat = s.srate.toNat * (c.C / 2) ∧ t.fidx = 0 ∧ t.seq = BUSY ∧
      t = { s with actl := t.actl, fpc := t.fpc, bpf := t.bpf, blen := t.blen, tmult := t.tmult, wrate := t.wrate, fidx := t.fidx,
                   seq := t.seq }

/-- CMD_RELEASE: READY to IDLE and nothing else; an error in every other state (43_cycle_control R172). -/
def Obligations.ReleaseEndsTheHandOff : Prop :=
  ∀ s, (s.seq = READY → exec .cmdRelease s = .next { s with seq := IDLE }) ∧
    (s.seq ≠ READY → exec .cmdRelease s = .next { s with cmderr := true, ecode := 2 })

/-- CMD_INVALID raises CMD_UNKNOWN in every state and changes nothing else, whatever its data (43_cycle_control R173). -/
def Obligations.InvalidCommandRaises : Prop :=
  ∀ s data, exec (.cmdInvalid data) s = .next { s with cmderr := true, ecode := 3 }

/-- WR_STATUS clears the flags whose bits are 1, clears ECODE exactly where no flag is left, and changes nothing else
(43_cycle_control R174). -/
def Obligations.StatusWriteClearsSelectedFlags : Prop :=
  ∀ s data, ∃ t, exec (.wrStatus data) s = .next t ∧
    (data.getLsbD 2 = true → t.cfgerr = false) ∧ (data.getLsbD 2 = false → t.cfgerr = s.cfgerr) ∧
    (data.getLsbD 3 = true → t.allocerr = false) ∧ (data.getLsbD 3 = false → t.allocerr = s.allocerr) ∧
    (data.getLsbD 4 = true → t.cmderr = false) ∧ (data.getLsbD 4 = false → t.cmderr = s.cmderr) ∧
    (t.cfgerr = false ∧ t.allocerr = false ∧ t.cmderr = false → t.ecode = 0) ∧
    (t.cfgerr = true ∨ t.allocerr = true ∨ t.cmderr = true → t.ecode = s.ecode) ∧
    t = { s with cfgerr := t.cfgerr, allocerr := t.allocerr, cmderr := t.cmderr, ecode := t.ecode }

/-! ### Who changes what -/

/-- Each flag is set only by raising an error of its class, and cleared only by a STATUS write with a 1 in its bit or by reset; no
operation sets a flag as a side effect of success (10_state R32). -/
def Obligations.FlagsChangeOnlyByErrorsAndClears : Prop :=
  ∀ i s t, exec i s = .next t →
    (s.cfgerr = false → t.cfgerr = true → ∃ e, errFlagOf e = .cfgerr ∧ t = s.raise e) ∧
    (s.allocerr = false → t.allocerr = true → ∃ e, errFlagOf e = .allocerr ∧ t = s.raise e) ∧
    (s.cmderr = false → t.cmderr = true → ∃ e, errFlagOf e = .cmderr ∧ t = s.raise e) ∧
    (s.cfgerr = true → t.cfgerr = false → i = .reset ∨ ∃ data, i = .wrStatus data ∧ data.getLsbD 2 = true) ∧
    (s.allocerr = true → t.allocerr = false → i = .reset ∨ ∃ data, i = .wrStatus data ∧ data.getLsbD 3 = true) ∧
    (s.cmderr = true → t.cmderr = false → i = .reset ∨ ∃ data, i = .wrStatus data ∧ data.getLsbD 4 = true)

/-- The transitions of STATUS.STATE, and no others: IDLE to BUSY by START, BUSY to READY by the engine step that packs the last frame,
READY to IDLE by RELEASE, any state to IDLE by reset (10_state R31). -/
def Obligations.SequencerTransitions : Prop :=
  ∀ i s t, exec i s = .next t →
    t.seq = s.seq ∨ (i = .cmdStart ∧ s.seq = IDLE ∧ t.seq = BUSY) ∨
    (i = .engFrame ∧ s.seq = BUSY ∧ t.seq = READY ∧ t.fidx = s.fidx + 1 ∧ t.fidx = t.fpc) ∨
    (i = .cmdRelease ∧ s.seq = READY ∧ t.seq = IDLE) ∨ (i = .reset ∧ t.seq = IDLE)

/-- FPC, BPF, BLEN, WRATE, TMULT and ACTL are written only by an accepted START and by reset (10_state R33 to R38). -/
def Obligations.ActiveRegistersChangeOnlyByStart : Prop :=
  ∀ i s t, exec i s = .next t →
    (t.fpc = s.fpc ∧ t.bpf = s.bpf ∧ t.blen = s.blen ∧ t.wrate = s.wrate ∧ t.tmult = s.tmult ∧ t.actl = s.actl) ∨
    (i = .cmdStart ∧ s.seq = IDLE ∧ t.seq = BUSY ∧ t.actl = s.ctrl) ∨ i = .reset

/-- FIDX is set to 0 by an accepted START and by reset, advanced by 1 by an engine step in BUSY, and unchanged by everything else
(10_state R39). An accepted START is one that takes IDLE to BUSY (R31). -/
def Obligations.FrameIndexChanges : Prop :=
  ∀ i s t, exec i s = .next t →
    (i = .engFrame → s.seq = BUSY → t.fidx = s.fidx + 1) ∧
    (i = .cmdStart → s.seq = IDLE → t.seq = BUSY → t.fidx = 0) ∧
    (i = .reset → t.fidx = 0) ∧
    (¬(i = .engFrame ∧ s.seq = BUSY) → ¬(i = .cmdStart ∧ s.seq = IDLE ∧ t.seq = BUSY) → i ≠ .reset → t.fidx = s.fidx)

/-- CTRL, SRATE and WFREQ change only by their own writes and by reset (10_state R25, R27, R28). -/
def Obligations.ConfigurationChangesOnlyByItsWrites : Prop :=
  ∀ i s t, exec i s = .next t →
    (t.ctrl = s.ctrl ∨ i = .reset ∨ ∃ data, i = .wrCtrl data) ∧ (t.srate = s.srate ∨ i = .reset ∨ ∃ data, i = .wrSrate data) ∧
    (t.wfreq = s.wfreq ∨ i = .reset ∨ ∃ data, i = .wrWfreq data)

/-- Only the engine writes FBUF, and only reset makes it unknown: every byte is unchanged by every other operation (10_state R40). -/
def Obligations.OnlyTheEngineWritesFbuf : Prop :=
  ∀ i s t, exec i s = .next t → i ≠ .engFrame → i ≠ .reset → ∀ a, t.mem.readByte a = s.mem.readByte a

/-! ### The synthesizer -/

/-- The synthesizer's contract: in triangle-sine mode the triangle on each even channel and the sine on each odd one, with low part 0;
in diagnostic mode bit `j`, with low part `j` (40_synthesizer R100, R104, R105, R106). -/
def Obligations.SynthesizerContract : Prop :=
  ∀ (c : Cfg) (N i k : Nat),
    (c.diag = false → synth c N i (2 * k) = (tri c.b N i, 0) ∧ synth c N i (2 * k + 1) = (sine c.b N i, 0)) ∧
    (c.diag = true → synth c N i k = ((2 : Int) ^ k, k))

/-- The triangle is the exact accumulator of the document truncated toward zero: from `-(2^(b-1) - 1)`, a step of `2^b / N` up or down
for each frame from 0 to `i` (40_synthesizer R101). -/
def Obligations.TriangleIsTheTruncatedAccumulator : Prop :=
  ∀ b N i : Nat, b ∈ [16, 24, 32] → i < N →
    let acc : ℚ := -(2 ^ (b - 1) - 1) + ((List.range (i + 1)).map fun k => if up N k then (2 ^ b / N : ℚ) else -(2 ^ b / N)).sum
    (0 ≤ acc → tri b N i = ⌊acc⌋) ∧ (acc ≤ 0 → tri b N i = ⌈acc⌉)

/-- The triangle goes up at frame `k` exactly where `sin(2πk/N)` is not negative (40_synthesizer R102). -/
def Obligations.TriangleDirectionIsTheSineSign : Prop :=
  ∀ N k : Nat, k < N → (up N k = true ↔ 0 ≤ Real.sin (2 * Real.pi * k / N))

/-- The sine sample is the exact real value `(2^(b-1) - 1)·sin(2πi/N)` truncated toward zero (40_synthesizer R103), for every bit depth,
every number of frames and every frame. -/
def Obligations.SineIsTheTruncatedRealSine : Prop :=
  ∀ b N i : Nat, b ∈ [16, 24, 32] → i < N →
    (0 ≤ (2 ^ (b - 1) - 1 : ℝ) * Real.sin (2 * Real.pi * i / N) →
      sine b N i = ⌊(2 ^ (b - 1) - 1 : ℝ) * Real.sin (2 * Real.pi * i / N)⌋) ∧
    ((2 ^ (b - 1) - 1 : ℝ) * Real.sin (2 * Real.pi * i / N) ≤ 0 →
      sine b N i = ⌈(2 ^ (b - 1) - 1 : ℝ) * Real.sin (2 * Real.pi * i / N)⌉)

/-- The corner cases of the sine: 0 at the start and half way, full scale at the quarters, odd symmetry, and never beyond full scale
(40_synthesizer R103, R108 item 2). -/
def Obligations.SineSymmetryAndRange : Prop :=
  ∀ b N i : Nat, b ∈ [16, 24, 32] → i < N →
    sine b N 0 = 0 ∧ (N = 2 * i → sine b N i = 0) ∧ (N = 4 * i → sine b N i = 2 ^ (b - 1) - 1) ∧
    (3 * N = 4 * i → sine b N i = -(2 ^ (b - 1) - 1)) ∧ (0 < i → sine b N (N - i) = -sine b N i) ∧
    -(2 ^ (b - 1) - 1) ≤ sine b N i ∧ sine b N i ≤ 2 ^ (b - 1) - 1

/-- From 3 frames on the triangle stays between one above its start and full scale (40_synthesizer R101, R107). -/
def Obligations.TriangleFitsFromThreeFramesOn : Prop :=
  ∀ b N i : Nat, b ∈ [16, 24, 32] → 3 ≤ N → i < N →
    -(2 ^ (b - 1) - 1) + 1 ≤ tri b N i ∧ tri b N i ≤ 2 ^ (b - 1) - 1

/-- The triangle that does not fit, for `N = 1` and for `N = 2` at frame 1, and the field it packs to (40_synthesizer R107). -/
def Obligations.TriangleWrapsForOneAndTwoFrames : Prop :=
  (∀ b, b ∈ [16, 24, 32] → tri b 1 0 = 2 ^ (b - 1) + 1 ∧ tri b 2 1 = 2 ^ (b - 1) + 1) ∧
  BitVec.ofInt 16 (tri 16 1 0) = 0x8001 ∧ BitVec.ofInt 24 (tri 24 1 0) = 0x800001 ∧ BitVec.ofInt 32 (tri 32 1 0) = 0x80000001

/-- For `3 ≤ N ≤ 2^(b-1)` the triangle of frame `i` is above that of frame `i - 1` exactly where the sine goes up, and below it
otherwise (40_synthesizer R108 item 1). -/
def Obligations.TriangleMovesStrictlyWithTheSineSign : Prop :=
  ∀ b N i : Nat, b ∈ [16, 24, 32] → 3 ≤ N → N ≤ 2 ^ (b - 1) → 1 ≤ i → i < N →
    (up N i = true → tri b N (i - 1) < tri b N i) ∧ (up N i = false → tri b N i < tri b N (i - 1))

/-- In diagnostic mode every frame packs to the same words, the field of channel `j` extracts to bit `j` alone, and no two channels
share an identifying bit (40_synthesizer R105, R108 item 3; 41_packer R124). -/
def Obligations.DiagnosticFramesAreConstantAndDisjoint : Prop :=
  ∀ ctrl c (N i i' : Nat), legalCfg ctrl = some c → c.diag = true →
    pack c N i = pack c N i' ∧
    (∀ words, pack c N i = some words → ∀ j, j < c.C → extractSample c words j % 2 ^ c.b = 2 ^ j) ∧
    (∀ j j', j < c.C → j' < c.C → j ≠ j' → 2 ^ j &&& 2 ^ j' = 0)

/-! ### Packer and engine -/

/-- The legal configurations are the 18 CTRL values of 30_encoding R76 (10_state R26). -/
def Obligations.LegalConfigurations : Prop :=
  ∀ ctrl : BitVec 7, (legalCfg ctrl).isSome = true ↔
    ctrl ∈ [0x00#7, 0x40, 0x04, 0x44, 0x08, 0x48, 0x21, 0x61, 0x25, 0x65, 0x29, 0x69, 0x22, 0x62, 0x26, 0x66, 0x2A, 0x6A]

/-- A frame packs to exactly `WPF = C·W/32` words, which are `bytesPerFrame` bytes, and the cycle to exactly
`framesPerCycle · C · W/8` bytes (41_packer R121, R132). -/
def Obligations.PackedLengthIsTheBufferLength : Prop :=
  ∀ ctrl c (N i : Nat), legalCfg ctrl = some c →
    (∃ words, pack c N i = some words ∧ words.length = c.C * c.W / 32) ∧ 4 * (c.C * c.W / 32) = c.C * c.W / 8 ∧
    4 * (cycleWords c N).length = N * c.C * c.W / 8

/-- Extraction from the words of a frame returns every sample that fits `b` signed bits exactly, and the low part of a 24-bit slot
(41_packer R125). -/
def Obligations.ExtractionInvertsPacking : Prop :=
  ∀ ctrl c (N i j : Nat) words, legalCfg ctrl = some c → pack c N i = some words → j < c.C →
    (-(2 ^ (c.b - 1)) ≤ (synth c N i j).1 → (synth c N i j).1 < 2 ^ (c.b - 1) → extractSample c words j = (synth c N i j).1) ∧
    (c.b = 24 → (extractLow words j).toNat = (synth c N i j).2)

/-- The wire view: stereo frame `i·TMULT + k` carries logical channel `2k` of frame `i` as its left slot and channel `2k + 1` as its
right slot (41_packer R126). -/
def Obligations.StereoFramesAreTheBufferInOrder : Prop :=
  ∀ ctrl c (N i k : Nat), legalCfg ctrl = some c → i < N → k < c.C / 2 →
    stereoFrame c (fun n => (cycleWords c N).getD n 0) (i * (c.C / 2) + k) = (slotOf c N i (2 * k), slotOf c N i (2 * k + 1))

/-- The byte view of FBUF is little-endian: byte `4k + n` of the buffer is bits `8n + 7 .. 8n` of word `k` (20_memory R53). -/
def Obligations.ByteViewIsLittleEndian : Prop :=
  ∀ (s : State) (k n : Nat) v, s.fbufWord k = some v → n < 4 → s.fbufByte (4 * k + n) = some (v.extractLsb' (8 * n) 8)

/-- ENG_FRAME in BUSY, on a frame of a legal active configuration that lies inside FBUF: it writes the packed words of frame FIDX at
word `FIDX·WPF`, advances FIDX, enters READY with the last frame, and changes no other byte of FBUF and no other state
(41_packer R130). -/
def Obligations.EngineStepPacksOneFrame : Prop :=
  ∀ s c words, s.seq = BUSY → s.fidx.toNat < s.fpc.toNat → legalCfg s.actl = some c →
    pack c s.fpc.toNat s.fidx.toNat = some words → 4 * ((s.fidx.toNat + 1) * wordsPerFrame c.C c.W) ≤ s.bufBytesMax →
    ∃ t, exec .engFrame s = .next t ∧ t.fidx.toNat = s.fidx.toNat + 1 ∧
      t.seq = (if s.fidx.toNat + 1 = s.fpc.toNat then READY else BUSY) ∧
      (∀ w, w < wordsPerFrame c.C c.W → t.fbufWord (s.fidx.toNat * wordsPerFrame c.C c.W + w) = words[w]?) ∧
      words.length = wordsPerFrame c.C c.W ∧
      (∀ a, a < fbufAddr (s.fidx.toNat * wordsPerFrame c.C c.W) ∨
        fbufAddr (s.fidx.toNat * wordsPerFrame c.C c.W) + 4 * wordsPerFrame c.C c.W ≤ a → t.mem.readByte a = s.mem.readByte a) ∧
      t = { s with fidx := t.fidx, seq := t.seq, mem := t.mem }

/-- Outside BUSY the engine takes no step: an engine move leaves the state as it is (41_packer R131, log 10). -/
def Obligations.EngineTakesNoStepOutsideBusy : Prop :=
  ∀ s, s.seq ≠ BUSY → exec .engFrame s = .next s

/-- The engine step reads no CTRL, SRATE or WFREQ: with other values in them it does the same and leaves them (41_packer R130, 10_state
R37). -/
def Obligations.EngineReadsNoHostConfiguration : Prop :=
  ∀ s t ctrl srate wfreq, exec .engFrame s = .next t →
    exec .engFrame { s with ctrl := ctrl, srate := srate, wfreq := wfreq } =
      .next { t with ctrl := ctrl, srate := srate, wfreq := wfreq }

/-- In a state of the invariant no step faults: the engine cannot fail, because every check is made at START (41_packer R130). -/
def Obligations.NoStepFaultsUnderTheInvariant : Prop :=
  ∀ s f, s.Inv → step s ≠ .fault f

/-- In READY the buffer does not change and STATE becomes IDLE at most, in any step but a reset (20_memory R60, 41_packer R131). -/
def Obligations.ReadyBufferIsStable : Prop :=
  ∀ s t, s.seq = READY → (∀ rest, s.pending ≠ .reset :: rest) → step s = .next t →
    (∀ a, t.mem.readByte a = s.mem.readByte a) ∧ (t.seq = READY ∨ t.seq = IDLE) ∧ t.blen = s.blen

/-- In READY, in a state of the invariant, a read of any word of the cycle returns the packed word, and nothing else happens: what the
transport reads is the cycle's buffer (20_memory R54, 10_state R41 item 3). -/
def Obligations.TransportReadsTheCycle : Prop :=
  ∀ s c (k : WordIndex) v, s.Inv → s.seq = READY → legalCfg s.actl = some c → k.toNat < s.blen.toNat / 4 →
    (cycleWords c s.fpc.toNat)[k.toNat]? = some v → exec (.rdFbuf k) s = .next { s with rdata := v }

/-- An accepted START followed by FPC engine steps leaves READY, FIDX = FPC, and FBUF words `0` to `BLEN/4 - 1` equal to
`PACK(0) ++ ... ++ PACK(FPC - 1)` (41_packer R131). -/
def Obligations.AcceptedStartCompletesInFpcSteps : Prop :=
  ∀ s c g, startCheck s = .ok g → legalCfg s.ctrl = some c →
    ∃ t u, exec .cmdStart s = .next t ∧ t.fpc.toNat = g.N ∧ engineSteps t.fpc.toNat t = .next u ∧ u.seq = READY ∧ u.fidx = u.fpc ∧
      u.fpc = t.fpc ∧ u.blen = t.blen ∧ (cycleWords c u.fpc.toNat).length = u.blen.toNat / 4 ∧
      ∀ k, k < u.blen.toNat / 4 → u.fbufWord k = (cycleWords c u.fpc.toNat)[k]?

/-- The state after reset meets the invariant. -/
def Obligations.InvariantHoldsAtReset : Prop := State.reset.Inv

/-- Every step of every agent keeps the invariant of 10_state R41, from every state that has it: STATE is legal, a BUSY cycle has frames
left, the packed frames stay in FBUF, the active registers fit together, ECODE is 0 exactly where no flag is set, and FBUF keeps its
form and its bounds (log 7). -/
def Obligations.EveryStepKeepsTheInvariant : Prop :=
  ∀ s t, s.Inv → step s = .next t → t.Inv
end

