-- ==== Sys2Proof/Laws/Decode.lean ====
section
/-! SUPPORT. The fields of a transaction put together from its fields, and of the two kinds of address (spec/30_encoding.md R70,
spec/20_memory.md R50). -/

namespace Sys2Proof

@[simp] theorem isWrite_transaction (write : Bool) (addr : BitVec 32) (data : Word) : isWrite (transaction write addr data) = write := by
  simp only [isWrite, transaction, BitVec.getLsbD_append]
  cases write <;> simp

@[simp] theorem addrOf_transaction (write : Bool) (addr : BitVec 32) (data : Word) : addrOf (transaction write addr data) = addr := by
  apply BitVec.eq_of_getLsbD_eq
  intro i hi
  simp only [addrOf, transaction, BitVec.getLsbD_extractLsb', BitVec.getLsbD_append, hi, decide_true, Bool.true_and,
    show ¬ 32 + i < 32 by omega]
  simp [show 32 + i - 32 = i by omega, hi]

@[simp] theorem dataOf_transaction (write : Bool) (addr : BitVec 32) (data : Word) : dataOf (transaction write addr data) = data := by
  apply BitVec.eq_of_getLsbD_eq
  intro i hi
  simp only [dataOf, transaction, BitVec.getLsbD_extractLsb', BitVec.getLsbD_append]
  simp [hi]

/-- A transaction is its three fields. -/
theorem transaction_fields (ht : HT) : transaction (isWrite ht) (addrOf ht) (dataOf ht) = ht := by
  apply BitVec.eq_of_getLsbD_eq
  intro i hi
  simp only [transaction, isWrite, addrOf, dataOf, BitVec.getLsbD_append, BitVec.getLsbD_extractLsb', BitVec.getLsbD_ofBool]
  split
  · rename_i h; simp [h]
  · split
    · rename_i h h'
      have : i - 32 < 32 := by omega
      simp [show 32 + (i - 32) = i by omega, this]
    · rename_i h h'
      have : i = 64 := by omega
      subst this; simp

/-- `ADDR[1:0]` are bits 33 and 32 of HT (30_encoding R71). -/
theorem addrOf_low (ht : HT) : (addrOf ht).extractLsb' 0 2 = ht.extractLsb' 32 2 := by
  apply BitVec.eq_of_getLsbD_eq
  intro i hi
  simp [addrOf, hi, show i < 32 by omega]

@[simp] theorem windowAddr_low (k : WordIndex) : (windowAddr k).extractLsb' 0 2 = 0#2 := by
  apply BitVec.eq_of_getLsbD_eq
  intro i hi
  simp only [windowAddr, BitVec.getLsbD_extractLsb', BitVec.getLsbD_append]
  simp [hi]

@[simp] theorem lowAddr_low (k : WordIndex) : (lowAddr k).extractLsb' 0 2 = 0#2 := by
  apply BitVec.eq_of_getLsbD_eq
  intro i hi
  simp only [lowAddr, BitVec.getLsbD_extractLsb', BitVec.getLsbD_append]
  simp [hi]

@[simp] theorem windowAddr_msb (k : WordIndex) : (windowAddr k).msb = true := by
  simp only [windowAddr, BitVec.msb_eq_getLsbD_last, BitVec.getLsbD_append]
  simp

@[simp] theorem lowAddr_msb (k : WordIndex) : (lowAddr k).msb = false := by
  simp only [lowAddr, BitVec.msb_eq_getLsbD_last, BitVec.getLsbD_append]
  simp

@[simp] theorem wordIndexOf_windowAddr (k : WordIndex) : wordIndexOf (windowAddr k) = k := by
  apply BitVec.eq_of_getLsbD_eq
  intro i hi
  simp only [wordIndexOf, windowAddr, BitVec.getLsbD_extractLsb', BitVec.getLsbD_append]
  simp [hi, show ¬ 2 + i < 2 by omega, show 2 + i - 2 = i by omega]

@[simp] theorem wordIndexOf_lowAddr (k : WordIndex) : wordIndexOf (lowAddr k) = k := by
  apply BitVec.eq_of_getLsbD_eq
  intro i hi
  simp only [wordIndexOf, lowAddr, BitVec.getLsbD_extractLsb', BitVec.getLsbD_append]
  simp [hi, show ¬ 2 + i < 2 by omega, show 2 + i - 2 = i by omega]

/-- An aligned address with `ADDR[31] = 1` is one of the FBUF window (20_memory R50). -/
theorem windowAddr_wordIndexOf (addr : BitVec 32) (h0 : addr.extractLsb' 0 2 = 0#2) (h1 : addr.msb = true) :
    windowAddr (wordIndexOf addr) = addr := by
  apply BitVec.eq_of_getLsbD_eq
  intro i hi
  have hlow : ∀ j, j < 2 → addr.getLsbD j = false := fun j hj => by
    have := congrArg (fun x : BitVec 2 => x.getLsbD j) h0
    simpa [hj] using this
  simp only [windowAddr, wordIndexOf, BitVec.getLsbD_append, BitVec.getLsbD_extractLsb']
  split
  · rename_i h; rw [hlow i h]; simp
  · split
    · rename_i h h'; simp [show 2 + (i - 2) = i by omega, h']
    · rename_i h h'
      have : i = 31 := by omega
      subst this
      simpa [BitVec.msb_eq_getLsbD_last] using h1.symm

/-- An aligned address with `ADDR[31] = 0` is four times its word index (20_memory R50). -/
theorem lowAddr_wordIndexOf (addr : BitVec 32) (h0 : addr.extractLsb' 0 2 = 0#2) (h1 : addr.msb = false) :
    lowAddr (wordIndexOf addr) = addr := by
  apply BitVec.eq_of_getLsbD_eq
  intro i hi
  have hlow : ∀ j, j < 2 → addr.getLsbD j = false := fun j hj => by
    have := congrArg (fun x : BitVec 2 => x.getLsbD j) h0
    simpa [hj] using this
  simp only [lowAddr, wordIndexOf, BitVec.getLsbD_append, BitVec.getLsbD_extractLsb']
  split
  · rename_i h; rw [hlow i h]; simp
  · split
    · rename_i h h'; simp [show 2 + (i - 2) = i by omega, h']
    · rename_i h h'
      have : i = 31 := by omega
      subst this
      simpa [BitVec.msb_eq_getLsbD_last] using h1.symm

/-- The number of an address below `0x8000_0000`. -/
theorem lowAddr_toNat (k : WordIndex) : (lowAddr k).toNat = 4 * k.toNat := by
  have := k.isLt
  simp only [lowAddr, BitVec.toNat_append, Nat.shiftLeft_eq]
  simp
  omega

/-- Decoding goes by the three fields (30_encoding R71, R72). -/
theorem decode_transaction (write : Bool) (addr : BitVec 32) (data : Word) :
    decode (transaction write addr data) =
      if addr.extractLsb' 0 2 ≠ 0#2 then .error .misaligned
      else if addr.msb then .ok (if write then .wrFbuf (wordIndexOf addr) data else .rdFbuf (wordIndexOf addr))
      else .ok (if write then decodeLowWrite addr data else decodeLowRead addr) := by
  simp [decode]

end Sys2Proof
end

