-- ==== Sys2Proof/Laws/Memory.lean ====
section
/-! SUPPORT. The laws of memory: a read after a write, the other addresses, and the canonical form, for bytes, words and runs of words. -/

namespace Sys2Proof.Machine

theorem Memory.readByte_writeByte_same (m : Memory) (a : Nat) (v : Byte) : (m.writeByte a v).readByte a = some v := by
  induction m with
  | nil => simp [Memory.writeByte, Memory.readByte]
  | cons c rest ih =>
    obtain ⟨b, w⟩ := c
    simp only [Memory.writeByte]
    split
    · simp [Memory.readByte]
    · split
      · simp [Memory.readByte]
      · rename_i h
        simp [Memory.readByte, ih, Ne.symm h]

theorem Memory.readByte_writeByte_ne (m : Memory) (a a' : Nat) (v : Byte) (h : a' ≠ a) :
    (m.writeByte a v).readByte a' = m.readByte a' := by
  induction m with
  | nil => simp [Memory.writeByte, Memory.readByte, h.symm]
  | cons c rest ih =>
    obtain ⟨b, w⟩ := c
    simp only [Memory.writeByte]
    split
    · simp [Memory.readByte, h.symm]
    · split
      · rename_i hab
        subst hab
        simp [Memory.readByte, h.symm]
      · simp [Memory.readByte, ih]

/-- A read after a write of one byte. -/
theorem Memory.readByte_writeByte (m : Memory) (a a' : Nat) (v : Byte) :
    (m.writeByte a v).readByte a' = if a' = a then some v else m.readByte a' := by
  split
  · rename_i h; rw [h, Memory.readByte_writeByte_same]
  · rename_i h; exact Memory.readByte_writeByte_ne m a a' v h

/-- Each cell of memory after a write is the written one or was there before. -/
theorem Memory.mem_writeByte {m : Memory} {a : Nat} {v : Byte} {c : Host.Cell} (h : c ∈ m.writeByte a v) : c = (a, v) ∨ c ∈ m := by
  induction m with
  | nil => exact .inl (by simpa [Memory.writeByte] using h)
  | cons d rest ih =>
    obtain ⟨b, w⟩ := d
    simp only [Memory.writeByte] at h
    split at h
    · simpa using h
    · split at h
      · rcases List.mem_cons.mp h with h | h
        · exact .inl h
        · exact .inr (List.mem_cons_of_mem _ h)
      · rcases List.mem_cons.mp h with h | h
        · exact .inr (by simp [h])
        · exact (ih h).imp id (List.mem_cons_of_mem _)

/-- A write keeps the canonical form. -/
theorem Memory.wf_writeByte {m : Memory} (hm : m.wf) (a : Nat) (v : Byte) : (m.writeByte a v).wf := by
  induction m with
  | nil => simp [Memory.writeByte, Memory.wf]
  | cons d rest ih =>
    obtain ⟨b, w⟩ := d
    obtain ⟨h1, h2⟩ := List.pairwise_cons.mp hm
    simp only [Memory.writeByte]
    split
    · rename_i hab
      refine List.pairwise_cons.mpr ⟨fun c hc => ?_, hm⟩
      rcases List.mem_cons.mp hc with rfl | hc
      · exact hab
      · exact lt_trans hab (h1 c hc)
    · split
      · rename_i hab
        subst hab
        exact List.pairwise_cons.mpr ⟨h1, h2⟩
      · refine List.pairwise_cons.mpr ⟨fun c hc => ?_, ih h2⟩
        rcases Memory.mem_writeByte hc with rfl | hc
        · show b < a
          omega
        · exact h1 c hc

theorem Memory.wf_writeWord {m : Memory} (hm : m.wf) (a : Nat) (v : Word) : (m.writeWord a v).wf :=
  Memory.wf_writeByte (Memory.wf_writeByte (Memory.wf_writeByte (Memory.wf_writeByte hm _ _) _ _) _ _) _ _

/-- The canonical form is kept by a run of words. -/
theorem Memory.wf_writeWords {m : Memory} (hm : m.wf) (a : Nat) (vs : List Word) : (m.writeWords a vs).wf := by
  induction vs generalizing m a with
  | nil => exact hm
  | cons v vs ih => exact ih (Memory.wf_writeWord hm a v) (a + 4)

theorem Memory.mem_writeWord {m : Memory} {a : Nat} {v : Word} {c : Host.Cell} (h : c ∈ m.writeWord a v) :
    (a ≤ c.1 ∧ c.1 < a + 4) ∨ c ∈ m := by
  rcases Memory.mem_writeByte h with rfl | h
  · exact .inl ⟨by simp, by simp⟩
  rcases Memory.mem_writeByte h with rfl | h
  · exact .inl ⟨by simp, by simp⟩
  rcases Memory.mem_writeByte h with rfl | h
  · exact .inl ⟨by simp, by simp⟩
  rcases Memory.mem_writeByte h with rfl | h
  · exact .inl ⟨by simp, by simp⟩
  · exact .inr h

/-- Each cell of memory after a run of words lies inside the run or was there before. -/
theorem Memory.mem_writeWords {m : Memory} {a : Nat} {vs : List Word} {c : Host.Cell} (h : c ∈ m.writeWords a vs) :
    (a ≤ c.1 ∧ c.1 < a + 4 * vs.length) ∨ c ∈ m := by
  induction vs generalizing m a with
  | nil => exact .inr h
  | cons v vs ih =>
    rcases ih h with h | h
    · exact .inl (by simp only [List.length_cons]; omega)
    · rcases Memory.mem_writeWord h with h | h
      · exact .inl (by simp only [List.length_cons]; omega)
      · exact .inr h

theorem Memory.readByte_writeWord_outside (m : Memory) (a a' : Nat) (v : Word) (h : a' < a ∨ a + 4 ≤ a') :
    (m.writeWord a v).readByte a' = m.readByte a' := by
  simp only [Memory.writeWord]
  rw [Memory.readByte_writeByte_ne _ _ _ _ (by omega), Memory.readByte_writeByte_ne _ _ _ _ (by omega),
    Memory.readByte_writeByte_ne _ _ _ _ (by omega), Memory.readByte_writeByte_ne _ _ _ _ (by omega)]

/-- Byte `n` of a word just written (20_memory R53). -/
theorem Memory.readByte_writeWord_inside (m : Memory) (a n : Nat) (v : Word) (h : n < 4) :
    (m.writeWord a v).readByte (a + n) = some (v.extractLsb' (8 * n) 8) := by
  simp only [Memory.writeWord, Memory.readByte_writeByte]
  rcases (by omega : n = 0 ∨ n = 1 ∨ n = 2 ∨ n = 3) with rfl | rfl | rfl | rfl <;> simp

/-- Every byte outside a run of words is as it was. -/
theorem Memory.readByte_writeWords_outside (m : Memory) (a a' : Nat) (vs : List Word) (h : a' < a ∨ a + 4 * vs.length ≤ a') :
    (m.writeWords a vs).readByte a' = m.readByte a' := by
  induction vs generalizing m a with
  | nil => rfl
  | cons v vs ih =>
    simp only [List.length_cons] at h
    rw [Memory.writeWords, ih _ _ (by omega), Memory.readByte_writeWord_outside _ _ _ _ (by omega)]

/-- A word is its four bytes, the low one first (20_memory R53). -/
theorem word_of_bytes (v : Word) : v.extractLsb' 24 8 ++ v.extractLsb' 16 8 ++ v.extractLsb' 8 8 ++ v.extractLsb' 0 8 = v := by
  apply BitVec.eq_of_getElem_eq
  intro i hi
  simp only [BitVec.getElem_append, BitVec.getElem_extractLsb']
  split_ifs <;> (rw [BitVec.getLsbD_eq_getElem (by omega)]; congr 1; omega)

theorem Memory.readWord_writeWord_same (m : Memory) (a : Nat) (v : Word) : (m.writeWord a v).readWord a = some v := by
  have h0 := Memory.readByte_writeWord_inside m a 0 v (by omega)
  have h1 := Memory.readByte_writeWord_inside m a 1 v (by omega)
  have h2 := Memory.readByte_writeWord_inside m a 2 v (by omega)
  have h3 := Memory.readByte_writeWord_inside m a 3 v (by omega)
  simp only [Nat.add_zero] at h0
  simp only [Memory.readWord, h0, h1, h2, h3]
  simpa using word_of_bytes v

/-- Two memories that agree on the four bytes of a word agree on the word. -/
theorem Memory.readWord_congr {m m' : Memory} {a : Nat} (h : ∀ n, n < 4 → m.readByte (a + n) = m'.readByte (a + n)) :
    m.readWord a = m'.readWord a := by
  have h0 := h 0 (by omega)
  simp only [Nat.add_zero] at h0
  simp only [Memory.readWord, h0, h 1 (by omega), h 2 (by omega), h 3 (by omega)]

theorem Memory.readWord_writeWords_outside (m : Memory) (a a' : Nat) (vs : List Word) (h : a' + 4 ≤ a ∨ a + 4 * vs.length ≤ a') :
    (m.writeWords a vs).readWord a' = m.readWord a' :=
  Memory.readWord_congr fun n hn => Memory.readByte_writeWords_outside m a (a' + n) vs (by omega)

/-- Word `w` of a run of words just written. -/
theorem Memory.readWord_writeWords_inside (m : Memory) (a w : Nat) (vs : List Word) (h : w < vs.length) :
    (m.writeWords a vs).readWord (a + 4 * w) = vs[w]? := by
  induction vs generalizing m a w with
  | nil => simp at h
  | cons v vs ih =>
    cases w with
    | zero =>
      rw [Memory.writeWords, Memory.readWord_writeWords_outside _ _ _ _ (by omega)]
      simpa using Memory.readWord_writeWord_same m a v
    | succ w =>
      have := ih (m.writeWord a v) (a + 4) w (by simpa using h)
      rw [show a + 4 + 4 * w = a + 4 * (w + 1) by omega] at this
      simpa [Memory.writeWords] using this

/-- The engine's write: the words written (41_packer R130). -/
theorem State.fbufWord_writeFbuf_inside (s : State) (k w : Nat) (vs : List Word) (h : w < vs.length) :
    (s.writeFbuf k vs).fbufWord (k + w) = vs[w]? := by
  have := Memory.readWord_writeWords_inside s.mem (fbufAddr k) w vs h
  simpa [State.fbufWord, State.writeFbuf, fbufAddr, Nat.mul_add, Nat.add_assoc] using this

/-- The engine's write: every other word (41_packer R130). -/
theorem State.fbufWord_writeFbuf_outside (s : State) (k k' : Nat) (vs : List Word) (h : k' < k ∨ k + vs.length ≤ k') :
    (s.writeFbuf k vs).fbufWord k' = s.fbufWord k' :=
  Memory.readWord_writeWords_outside s.mem (fbufAddr k) (fbufAddr k') vs (by simp only [fbufAddr]; omega)

/-- The engine's write: every byte outside the words written (41_packer R130). -/
theorem State.readByte_writeFbuf_outside (s : State) (k a : Nat) (vs : List Word)
    (h : a < fbufAddr k ∨ fbufAddr k + 4 * vs.length ≤ a) : (s.writeFbuf k vs).mem.readByte a = s.mem.readByte a :=
  Memory.readByte_writeWords_outside s.mem (fbufAddr k) a vs h

end Sys2Proof.Machine
end

