-- ==== Sys2Proof/Laws/State.lean ====
section
/-! SUPPORT. What each update of the state does to each field, so that no later proof unfolds a record update. -/

namespace Sys2Proof.Machine

section states

@[simp] theorem IDLE_ne_BUSY : IDLE ≠ BUSY := by decide
@[simp] theorem IDLE_ne_READY : IDLE ≠ READY := by decide
@[simp] theorem BUSY_ne_IDLE : BUSY ≠ IDLE := by decide
@[simp] theorem BUSY_ne_READY : BUSY ≠ READY := by decide
@[simp] theorem READY_ne_IDLE : READY ≠ IDLE := by decide
@[simp] theorem READY_ne_BUSY : READY ≠ BUSY := by decide

end states

section deliver

variable (s : State) (v : Word)

@[simp] theorem State.deliver_ctrl : (s.deliver v).ctrl = s.ctrl := rfl
@[simp] theorem State.deliver_srate : (s.deliver v).srate = s.srate := rfl
@[simp] theorem State.deliver_wfreq : (s.deliver v).wfreq = s.wfreq := rfl
@[simp] theorem State.deliver_seq : (s.deliver v).seq = s.seq := rfl
@[simp] theorem State.deliver_cfgerr : (s.deliver v).cfgerr = s.cfgerr := rfl
@[simp] theorem State.deliver_allocerr : (s.deliver v).allocerr = s.allocerr := rfl
@[simp] theorem State.deliver_cmderr : (s.deliver v).cmderr = s.cmderr := rfl
@[simp] theorem State.deliver_ecode : (s.deliver v).ecode = s.ecode := rfl
@[simp] theorem State.deliver_fpc : (s.deliver v).fpc = s.fpc := rfl
@[simp] theorem State.deliver_bpf : (s.deliver v).bpf = s.bpf := rfl
@[simp] theorem State.deliver_blen : (s.deliver v).blen = s.blen := rfl
@[simp] theorem State.deliver_wrate : (s.deliver v).wrate = s.wrate := rfl
@[simp] theorem State.deliver_tmult : (s.deliver v).tmult = s.tmult := rfl
@[simp] theorem State.deliver_fidx : (s.deliver v).fidx = s.fidx := rfl
@[simp] theorem State.deliver_actl : (s.deliver v).actl = s.actl := rfl
@[simp] theorem State.deliver_mem : (s.deliver v).mem = s.mem := rfl
@[simp] theorem State.deliver_capCode : (s.deliver v).capCode = s.capCode := rfl
@[simp] theorem State.deliver_rdata : (s.deliver v).rdata = v := rfl
@[simp] theorem State.deliver_draws : (s.deliver v).draws = s.draws := rfl
@[simp] theorem State.deliver_pending : (s.deliver v).pending = s.pending := rfl
@[simp] theorem State.deliver_bufBytesMax : (s.deliver v).bufBytesMax = s.bufBytesMax := rfl

end deliver

section deliverDraw

variable (s : State)

@[simp] theorem State.deliverDraw_ctrl : (s.deliverDraw).ctrl = s.ctrl := rfl
@[simp] theorem State.deliverDraw_srate : (s.deliverDraw).srate = s.srate := rfl
@[simp] theorem State.deliverDraw_wfreq : (s.deliverDraw).wfreq = s.wfreq := rfl
@[simp] theorem State.deliverDraw_seq : (s.deliverDraw).seq = s.seq := rfl
@[simp] theorem State.deliverDraw_cfgerr : (s.deliverDraw).cfgerr = s.cfgerr := rfl
@[simp] theorem State.deliverDraw_allocerr : (s.deliverDraw).allocerr = s.allocerr := rfl
@[simp] theorem State.deliverDraw_cmderr : (s.deliverDraw).cmderr = s.cmderr := rfl
@[simp] theorem State.deliverDraw_ecode : (s.deliverDraw).ecode = s.ecode := rfl
@[simp] theorem State.deliverDraw_fpc : (s.deliverDraw).fpc = s.fpc := rfl
@[simp] theorem State.deliverDraw_bpf : (s.deliverDraw).bpf = s.bpf := rfl
@[simp] theorem State.deliverDraw_blen : (s.deliverDraw).blen = s.blen := rfl
@[simp] theorem State.deliverDraw_wrate : (s.deliverDraw).wrate = s.wrate := rfl
@[simp] theorem State.deliverDraw_tmult : (s.deliverDraw).tmult = s.tmult := rfl
@[simp] theorem State.deliverDraw_fidx : (s.deliverDraw).fidx = s.fidx := rfl
@[simp] theorem State.deliverDraw_actl : (s.deliverDraw).actl = s.actl := rfl
@[simp] theorem State.deliverDraw_mem : (s.deliverDraw).mem = s.mem := rfl
@[simp] theorem State.deliverDraw_capCode : (s.deliverDraw).capCode = s.capCode := rfl
@[simp] theorem State.deliverDraw_rdata : (s.deliverDraw).rdata = Config.draw s.draws := rfl
@[simp] theorem State.deliverDraw_draws : (s.deliverDraw).draws = s.draws + 1 := rfl
@[simp] theorem State.deliverDraw_pending : (s.deliverDraw).pending = s.pending := rfl
@[simp] theorem State.deliverDraw_bufBytesMax : (s.deliverDraw).bufBytesMax = s.bufBytesMax := rfl

end deliverDraw

section writeFbuf

variable (s : State) (k : Nat) (ws : List Word)

@[simp] theorem State.writeFbuf_ctrl : (s.writeFbuf k ws).ctrl = s.ctrl := rfl
@[simp] theorem State.writeFbuf_srate : (s.writeFbuf k ws).srate = s.srate := rfl
@[simp] theorem State.writeFbuf_wfreq : (s.writeFbuf k ws).wfreq = s.wfreq := rfl
@[simp] theorem State.writeFbuf_seq : (s.writeFbuf k ws).seq = s.seq := rfl
@[simp] theorem State.writeFbuf_cfgerr : (s.writeFbuf k ws).cfgerr = s.cfgerr := rfl
@[simp] theorem State.writeFbuf_allocerr : (s.writeFbuf k ws).allocerr = s.allocerr := rfl
@[simp] theorem State.writeFbuf_cmderr : (s.writeFbuf k ws).cmderr = s.cmderr := rfl
@[simp] theorem State.writeFbuf_ecode : (s.writeFbuf k ws).ecode = s.ecode := rfl
@[simp] theorem State.writeFbuf_fpc : (s.writeFbuf k ws).fpc = s.fpc := rfl
@[simp] theorem State.writeFbuf_bpf : (s.writeFbuf k ws).bpf = s.bpf := rfl
@[simp] theorem State.writeFbuf_blen : (s.writeFbuf k ws).blen = s.blen := rfl
@[simp] theorem State.writeFbuf_wrate : (s.writeFbuf k ws).wrate = s.wrate := rfl
@[simp] theorem State.writeFbuf_tmult : (s.writeFbuf k ws).tmult = s.tmult := rfl
@[simp] theorem State.writeFbuf_fidx : (s.writeFbuf k ws).fidx = s.fidx := rfl
@[simp] theorem State.writeFbuf_actl : (s.writeFbuf k ws).actl = s.actl := rfl
@[simp] theorem State.writeFbuf_mem : (s.writeFbuf k ws).mem = s.mem.writeWords (fbufAddr k) ws := rfl
@[simp] theorem State.writeFbuf_capCode : (s.writeFbuf k ws).capCode = s.capCode := rfl
@[simp] theorem State.writeFbuf_rdata : (s.writeFbuf k ws).rdata = s.rdata := rfl
@[simp] theorem State.writeFbuf_draws : (s.writeFbuf k ws).draws = s.draws := rfl
@[simp] theorem State.writeFbuf_pending : (s.writeFbuf k ws).pending = s.pending := rfl
@[simp] theorem State.writeFbuf_bufBytesMax : (s.writeFbuf k ws).bufBytesMax = s.bufBytesMax := rfl

end writeFbuf

section beginCycle

variable (s : State) (g : Geom)

@[simp] theorem State.beginCycle_ctrl : (s.beginCycle g).ctrl = s.ctrl := rfl
@[simp] theorem State.beginCycle_srate : (s.beginCycle g).srate = s.srate := rfl
@[simp] theorem State.beginCycle_wfreq : (s.beginCycle g).wfreq = s.wfreq := rfl
@[simp] theorem State.beginCycle_seq : (s.beginCycle g).seq = BUSY := rfl
@[simp] theorem State.beginCycle_cfgerr : (s.beginCycle g).cfgerr = s.cfgerr := rfl
@[simp] theorem State.beginCycle_allocerr : (s.beginCycle g).allocerr = s.allocerr := rfl
@[simp] theorem State.beginCycle_cmderr : (s.beginCycle g).cmderr = s.cmderr := rfl
@[simp] theorem State.beginCycle_ecode : (s.beginCycle g).ecode = s.ecode := rfl
@[simp] theorem State.beginCycle_fpc : (s.beginCycle g).fpc = BitVec.ofNat 32 g.N := rfl
@[simp] theorem State.beginCycle_bpf : (s.beginCycle g).bpf = BitVec.ofNat 32 g.bpf := rfl
@[simp] theorem State.beginCycle_blen : (s.beginCycle g).blen = BitVec.ofNat 32 g.blen := rfl
@[simp] theorem State.beginCycle_wrate : (s.beginCycle g).wrate = BitVec.ofNat 32 g.wrate := rfl
@[simp] theorem State.beginCycle_tmult : (s.beginCycle g).tmult = BitVec.ofNat 32 g.tmult := rfl
@[simp] theorem State.beginCycle_fidx : (s.beginCycle g).fidx = 0 := rfl
@[simp] theorem State.beginCycle_actl : (s.beginCycle g).actl = s.ctrl := rfl
@[simp] theorem State.beginCycle_mem : (s.beginCycle g).mem = s.mem := rfl
@[simp] theorem State.beginCycle_capCode : (s.beginCycle g).capCode = s.capCode := rfl
@[simp] theorem State.beginCycle_rdata : (s.beginCycle g).rdata = s.rdata := rfl
@[simp] theorem State.beginCycle_draws : (s.beginCycle g).draws = s.draws := rfl
@[simp] theorem State.beginCycle_pending : (s.beginCycle g).pending = s.pending := rfl
@[simp] theorem State.beginCycle_bufBytesMax : (s.beginCycle g).bufBytesMax = s.bufBytesMax := rfl

end beginCycle

section advance

variable (s : State)

@[simp] theorem State.advance_ctrl : (s.advance).ctrl = s.ctrl := rfl
@[simp] theorem State.advance_srate : (s.advance).srate = s.srate := rfl
@[simp] theorem State.advance_wfreq : (s.advance).wfreq = s.wfreq := rfl
@[simp] theorem State.advance_seq : (s.advance).seq = s.seq := rfl
@[simp] theorem State.advance_cfgerr : (s.advance).cfgerr = s.cfgerr := rfl
@[simp] theorem State.advance_allocerr : (s.advance).allocerr = s.allocerr := rfl
@[simp] theorem State.advance_cmderr : (s.advance).cmderr = s.cmderr := rfl
@[simp] theorem State.advance_ecode : (s.advance).ecode = s.ecode := rfl
@[simp] theorem State.advance_fpc : (s.advance).fpc = s.fpc := rfl
@[simp] theorem State.advance_bpf : (s.advance).bpf = s.bpf := rfl
@[simp] theorem State.advance_blen : (s.advance).blen = s.blen := rfl
@[simp] theorem State.advance_wrate : (s.advance).wrate = s.wrate := rfl
@[simp] theorem State.advance_tmult : (s.advance).tmult = s.tmult := rfl
@[simp] theorem State.advance_fidx : (s.advance).fidx = s.fidx := rfl
@[simp] theorem State.advance_actl : (s.advance).actl = s.actl := rfl
@[simp] theorem State.advance_mem : (s.advance).mem = s.mem := rfl
@[simp] theorem State.advance_capCode : (s.advance).capCode = s.capCode := rfl
@[simp] theorem State.advance_rdata : (s.advance).rdata = s.rdata := rfl
@[simp] theorem State.advance_draws : (s.advance).draws = s.draws := rfl
@[simp] theorem State.advance_pending : (s.advance).pending = s.pending.tail := rfl
@[simp] theorem State.advance_bufBytesMax : (s.advance).bufBytesMax = s.bufBytesMax := rfl

end advance

section schedule

variable (s : State) (ht : HT)

@[simp] theorem State.schedule_ctrl : (s.schedule ht).ctrl = s.ctrl := rfl
@[simp] theorem State.schedule_srate : (s.schedule ht).srate = s.srate := rfl
@[simp] theorem State.schedule_wfreq : (s.schedule ht).wfreq = s.wfreq := rfl
@[simp] theorem State.schedule_seq : (s.schedule ht).seq = s.seq := rfl
@[simp] theorem State.schedule_cfgerr : (s.schedule ht).cfgerr = s.cfgerr := rfl
@[simp] theorem State.schedule_allocerr : (s.schedule ht).allocerr = s.allocerr := rfl
@[simp] theorem State.schedule_cmderr : (s.schedule ht).cmderr = s.cmderr := rfl
@[simp] theorem State.schedule_ecode : (s.schedule ht).ecode = s.ecode := rfl
@[simp] theorem State.schedule_fpc : (s.schedule ht).fpc = s.fpc := rfl
@[simp] theorem State.schedule_bpf : (s.schedule ht).bpf = s.bpf := rfl
@[simp] theorem State.schedule_blen : (s.schedule ht).blen = s.blen := rfl
@[simp] theorem State.schedule_wrate : (s.schedule ht).wrate = s.wrate := rfl
@[simp] theorem State.schedule_tmult : (s.schedule ht).tmult = s.tmult := rfl
@[simp] theorem State.schedule_fidx : (s.schedule ht).fidx = s.fidx := rfl
@[simp] theorem State.schedule_actl : (s.schedule ht).actl = s.actl := rfl
@[simp] theorem State.schedule_mem : (s.schedule ht).mem = s.mem := rfl
@[simp] theorem State.schedule_capCode : (s.schedule ht).capCode = s.capCode := rfl
@[simp] theorem State.schedule_rdata : (s.schedule ht).rdata = s.rdata := rfl
@[simp] theorem State.schedule_draws : (s.schedule ht).draws = s.draws := rfl
@[simp] theorem State.schedule_pending : (s.schedule ht).pending = .access 4 ht :: s.pending := rfl
@[simp] theorem State.schedule_bufBytesMax : (s.schedule ht).bufBytesMax = s.bufBytesMax := rfl

end schedule

section raise

variable (s : State) (e : ErrCode)

@[simp] theorem State.raise_ctrl : (s.raise e).ctrl = s.ctrl := by cases e <;> rfl
@[simp] theorem State.raise_srate : (s.raise e).srate = s.srate := by cases e <;> rfl
@[simp] theorem State.raise_wfreq : (s.raise e).wfreq = s.wfreq := by cases e <;> rfl
@[simp] theorem State.raise_seq : (s.raise e).seq = s.seq := by cases e <;> rfl
@[simp] theorem State.raise_cfgerr : (s.raise e).cfgerr = (s.cfgerr || errFlagOf e == .cfgerr) := by cases e <;> simp [State.raise, errFlagOf]
@[simp] theorem State.raise_allocerr : (s.raise e).allocerr = (s.allocerr || errFlagOf e == .allocerr) := by cases e <;> simp [State.raise, errFlagOf]
@[simp] theorem State.raise_cmderr : (s.raise e).cmderr = (s.cmderr || errFlagOf e == .cmderr) := by cases e <;> simp [State.raise, errFlagOf]
@[simp] theorem State.raise_ecode : (s.raise e).ecode = errCodeBits e := by cases e <;> rfl
@[simp] theorem State.raise_fpc : (s.raise e).fpc = s.fpc := by cases e <;> rfl
@[simp] theorem State.raise_bpf : (s.raise e).bpf = s.bpf := by cases e <;> rfl
@[simp] theorem State.raise_blen : (s.raise e).blen = s.blen := by cases e <;> rfl
@[simp] theorem State.raise_wrate : (s.raise e).wrate = s.wrate := by cases e <;> rfl
@[simp] theorem State.raise_tmult : (s.raise e).tmult = s.tmult := by cases e <;> rfl
@[simp] theorem State.raise_fidx : (s.raise e).fidx = s.fidx := by cases e <;> rfl
@[simp] theorem State.raise_actl : (s.raise e).actl = s.actl := by cases e <;> rfl
@[simp] theorem State.raise_mem : (s.raise e).mem = s.mem := by cases e <;> rfl
@[simp] theorem State.raise_capCode : (s.raise e).capCode = s.capCode := by cases e <;> rfl
@[simp] theorem State.raise_rdata : (s.raise e).rdata = s.rdata := by cases e <;> rfl
@[simp] theorem State.raise_draws : (s.raise e).draws = s.draws := by cases e <;> rfl
@[simp] theorem State.raise_pending : (s.raise e).pending = s.pending := by cases e <;> rfl
@[simp] theorem State.raise_bufBytesMax : (s.raise e).bufBytesMax = s.bufBytesMax := by cases e <;> rfl

end raise

section clearFlags

variable (data : Word) (s : State)

@[simp] theorem clearFlags_ctrl : (clearFlags data s).ctrl = s.ctrl := rfl
@[simp] theorem clearFlags_srate : (clearFlags data s).srate = s.srate := rfl
@[simp] theorem clearFlags_wfreq : (clearFlags data s).wfreq = s.wfreq := rfl
@[simp] theorem clearFlags_seq : (clearFlags data s).seq = s.seq := rfl
@[simp] theorem clearFlags_cfgerr : (clearFlags data s).cfgerr = (s.cfgerr && !data.getLsbD 2) := rfl
@[simp] theorem clearFlags_allocerr : (clearFlags data s).allocerr = (s.allocerr && !data.getLsbD 3) := rfl
@[simp] theorem clearFlags_cmderr : (clearFlags data s).cmderr = (s.cmderr && !data.getLsbD 4) := rfl
@[simp] theorem clearFlags_ecode : (clearFlags data s).ecode =
    if (clearFlags data s).cfgerr || (clearFlags data s).allocerr || (clearFlags data s).cmderr then s.ecode else 0 := rfl
@[simp] theorem clearFlags_fpc : (clearFlags data s).fpc = s.fpc := rfl
@[simp] theorem clearFlags_bpf : (clearFlags data s).bpf = s.bpf := rfl
@[simp] theorem clearFlags_blen : (clearFlags data s).blen = s.blen := rfl
@[simp] theorem clearFlags_wrate : (clearFlags data s).wrate = s.wrate := rfl
@[simp] theorem clearFlags_tmult : (clearFlags data s).tmult = s.tmult := rfl
@[simp] theorem clearFlags_fidx : (clearFlags data s).fidx = s.fidx := rfl
@[simp] theorem clearFlags_actl : (clearFlags data s).actl = s.actl := rfl
@[simp] theorem clearFlags_mem : (clearFlags data s).mem = s.mem := rfl
@[simp] theorem clearFlags_capCode : (clearFlags data s).capCode = s.capCode := rfl
@[simp] theorem clearFlags_rdata : (clearFlags data s).rdata = s.rdata := rfl
@[simp] theorem clearFlags_draws : (clearFlags data s).draws = s.draws := rfl
@[simp] theorem clearFlags_pending : (clearFlags data s).pending = s.pending := rfl
@[simp] theorem clearFlags_bufBytesMax : (clearFlags data s).bufBytesMax = s.bufBytesMax := rfl

end clearFlags

/-- `raise` changes the flags and ECODE alone (60_exceptions R202). -/
theorem State.raise_eq (s : State) (e : ErrCode) :
    s.raise e = { s with
      cfgerr := s.cfgerr || errFlagOf e == .cfgerr
      allocerr := s.allocerr || errFlagOf e == .allocerr
      cmderr := s.cmderr || errFlagOf e == .cmderr
      ecode := errCodeBits e } := by
  cases e <;> simp [State.raise, errFlagOf]

end Sys2Proof.Machine
end

