-- ==== Sys2Proof/Laws/Exec.lean ====
section
/-! SUPPORT. What each shared operation can answer, said once: the legal configurations, the packer's length, START's checks, the engine
step, and every operation of the block (`Effect`). Later proofs cite these and do not unfold the meanings. -/

namespace Sys2Proof.Machine

/-- A legal configuration is one of nine geometries (10_state R26, 41_packer R120). -/
theorem legalCfg_cases {ctrl : BitVec 7} {c : Cfg} (h : legalCfg ctrl = some c) :
    (c.C = 4 ∨ c.C = 8 ∨ c.C = 16) ∧ ((c.b = 16 ∧ c.W = 16) ∨ (c.b = 24 ∧ c.W = 32) ∨ (c.b = 32 ∧ c.W = 32)) := by
  have all : ∀ ctrl : BitVec 7, ∀ c, c ∈ (legalCfg ctrl).toList →
      (c.C = 4 ∨ c.C = 8 ∨ c.C = 16) ∧ ((c.b = 16 ∧ c.W = 16) ∨ (c.b = 24 ∧ c.W = 32) ∨ (c.b = 32 ∧ c.W = 32)) := by decide
  exact all ctrl c (by simp [h])

/-- A legal configuration is a decoded one whose pair has a layout (10_state R26). -/
theorem legalCfg_eq_some {ctrl : BitVec 7} {c : Cfg} : legalCfg ctrl = some c ↔ decodeCfg ctrl = some c ∧ legalPair c.b c.W = true := by
  simp [legalCfg, Option.filter_eq_some_iff]

/-- The fields of a configuration that has no reserved code (30_encoding R74). -/
theorem decodeCfg_fields {ctrl : BitVec 7} {c : Cfg} (h : decodeCfg ctrl = some c) :
    bitDepth (bdepField ctrl) = some c.b ∧ channelCount (chcntField ctrl) = some c.C ∧ channelWidth (chwField ctrl) = some c.W ∧
      modeField ctrl = c.diag := by
  unfold decodeCfg at h
  split at h
  · cases h
    exact ⟨‹_›, ‹_›, ‹_›, rfl⟩
  · cases h

/-- A field code is reserved exactly where it is `0b11` (30_encoding R74). -/
theorem field_not_reserved : ∀ code : BitVec 2, code ≠ 3 →
    (bitDepth code).isSome = true ∧ (channelCount code).isSome = true ∧ (channelWidth code).isSome = true := by decide

/-- A frame of a legal configuration packs, to `WPF` words (41_packer R121, R124). -/
theorem pack_legal {ctrl : BitVec 7} {c : Cfg} (h : legalCfg ctrl = some c) (N i : Nat) :
    ∃ words, pack c N i = some words ∧ words.length = wordsPerFrame c.C c.W := by
  obtain ⟨hC, ⟨hb, hW⟩ | ⟨hb, hW⟩ | ⟨hb, hW⟩⟩ := legalCfg_cases h <;> simp [pack, hb, hW, wordsPerFrame]
  all_goals omega

/-- The bytes of a frame are its words' (41_packer R121). -/
theorem wordsPerFrame_legal {ctrl : BitVec 7} {c : Cfg} (h : legalCfg ctrl = some c) :
    4 * wordsPerFrame c.C c.W = c.C * c.W / 8 ∧ 0 < wordsPerFrame c.C c.W := by
  obtain ⟨hC | hC | hC, ⟨hb, hW⟩ | ⟨hb, hW⟩ | ⟨hb, hW⟩⟩ := legalCfg_cases h <;> simp [hC, hW, wordsPerFrame]

/-- A configuration that passes CHECK_CONFIG is legal, and its rates are in range (60_exceptions R201). -/
theorem checkConfig_ok {ctrl : BitVec 7} {srate wfreq : Nat} {c : Cfg} (h : checkConfig ctrl srate wfreq = .ok c) :
    legalCfg ctrl = some c ∧ wfreq ≠ 0 ∧ srate / wfreq ≠ 0 ∧ srate * (c.C / 2) < 2 ^ 32 := by
  unfold checkConfig at h
  split at h
  · cases h
  rename_i b hb
  split at h
  · cases h
  rename_i C hC
  split at h
  · cases h
  rename_i W hW
  split_ifs at h with h1 h2 h3 h4
  cases h
  refine ⟨legalCfg_eq_some.mpr ⟨by simp [decodeCfg, hb, hC, hW], by simpa using h1⟩, h2, h3, not_le.mp h4⟩

/-- What START found where it is accepted (43_cycle_control R171). -/
theorem startCheck_ok {s : State} {g : Geom} (h : startCheck s = .ok g) :
    s.seq = IDLE ∧ ∃ c, legalCfg s.ctrl = some c ∧ g = geom c.C c.W s.srate.toNat s.wfreq.toNat ∧ s.wfreq.toNat ≠ 0 ∧
      s.srate.toNat / s.wfreq.toNat ≠ 0 ∧ s.srate.toNat * (c.C / 2) < 2 ^ 32 ∧ g.blen ≤ s.bufBytesMax := by
  unfold startCheck at h
  split at h
  · cases h
  rename_i hs
  split at h
  · cases h
  rename_i c hc
  obtain ⟨h1, h2, h3, h4⟩ := checkConfig_ok hc
  dsimp only at h
  split at h
  · cases h
  rename_i hb
  cases h
  exact ⟨by simpa using hs, c, h1, rfl, h2, h3, h4, by omega⟩

/-- `BUF_BYTES_MAX` is at least 4 and at most 2^31 (00_scope R7). -/
theorem State.bufBytesMax_bounds (s : State) : 4 ≤ s.bufBytesMax ∧ s.bufBytesMax ≤ 2 ^ 31 := by
  have := s.capCode.isLt
  simp only [State.bufBytesMax]
  omega

/-- The effect of an engine step on the frame `words` of configuration `c`. -/
def State.afterFrame (s : State) (c : Cfg) (words : List Word) : State :=
  { s.writeFbuf (s.fidx.toNat * wordsPerFrame c.C c.W) words with
    fidx := s.fidx + 1, seq := if s.fidx + 1 = s.fpc then READY else s.seq }

/-- The engine step where its preconditions hold (41_packer R130). -/
theorem execEngFrame_completes {s : State} {c : Cfg} {words : List Word} (hb : s.seq = BUSY) (hi : s.fidx.toNat < s.fpc.toNat)
    (hc : legalCfg s.actl = some c) (hw : pack c s.fpc.toNat s.fidx.toNat = some words)
    (hf : 4 * ((s.fidx.toNat + 1) * wordsPerFrame c.C c.W) ≤ s.bufBytesMax) :
    execEngFrame s = .next (s.afterFrame c words) := by
  have h : ¬ s.bufBytesMax < 4 * (s.fidx.toNat * wordsPerFrame c.C c.W + wordsPerFrame c.C c.W) := by
    rw [Nat.add_mul, Nat.one_mul] at hf
    omega
  simp [execEngFrame, hb, hi, hc, hw, h, State.afterFrame]

/-- What the engine step can answer (41_packer R130, R131). -/
theorem execEngFrame_next {s t : State} (h : execEngFrame s = .next t) :
    (s.seq ≠ BUSY ∧ t = s) ∨
    (s.seq = BUSY ∧ s.fidx.toNat < s.fpc.toNat ∧ ∃ c words, legalCfg s.actl = some c ∧
      pack c s.fpc.toNat s.fidx.toNat = some words ∧ 4 * ((s.fidx.toNat + 1) * wordsPerFrame c.C c.W) ≤ s.bufBytesMax ∧
      t = s.afterFrame c words) := by
  unfold execEngFrame at h
  split at h
  · rename_i hs
    cases h
    exact .inl ⟨hs, rfl⟩
  rename_i hs
  split at h
  · cases h
  rename_i hi
  split at h
  · cases h
  rename_i c hc
  split at h
  · cases h
  rename_i words hw
  dsimp only at h
  split at h
  · cases h
  rename_i hf
  cases h
  refine .inr ⟨by simpa using hs, by omega, c, words, hc, hw, ?_, rfl⟩
  rw [Nat.add_mul, Nat.one_mul]
  omega

/-- Everything an operation of the block can do. -/
inductive Effect (s : State) : Instr → State → Prop where
  /-- A read, or an operation without effect: only what the host was given changes. -/
  | answer (i : Instr) (v : Word) (n : Nat) : Effect s i { s with rdata := v, draws := n }
  | ctrl (data : Word) : Effect s (.wrCtrl data) { s with ctrl := data.extractLsb' 0 7 }
  | srate (data : Word) : Effect s (.wrSrate data) { s with srate := data }
  | wfreq (data : Word) : Effect s (.wrWfreq data) { s with wfreq := data }
  | clear (data : Word) : Effect s (.wrStatus data) (clearFlags data s)
  /-- A rejected command. -/
  | error (i : Instr) (e : ErrCode) (h : i = .cmdStart ∨ i = .cmdRelease ∨ ∃ data, i = .cmdInvalid data) : Effect s i (s.raise e)
  | start (g : Geom) (h : startCheck s = .ok g) : Effect s .cmdStart (s.beginCycle g)
  | release (h : s.seq = READY) : Effect s .cmdRelease { s with seq := IDLE }
  | frame (c : Cfg) (words : List Word) (hb : s.seq = BUSY) (hi : s.fidx.toNat < s.fpc.toNat) (hc : legalCfg s.actl = some c)
      (hw : pack c s.fpc.toNat s.fidx.toNat = some words)
      (hf : 4 * ((s.fidx.toNat + 1) * wordsPerFrame c.C c.W) ≤ s.bufBytesMax) : Effect s .engFrame (s.afterFrame c words)
  | reset : Effect s .reset { State.reset with capCode := s.capCode, rdata := s.rdata, draws := s.draws, pending := s.pending }

/-- Every operation that answers a next state does one of the effects. -/
theorem exec_next {i : Instr} {s t : State} (h : exec i s = .next t) : Effect s i t := by
  have quiet : ∀ i : Instr, Effect s i s := fun i => Effect.answer i s.rdata s.draws
  cases i with
  | rdFbuf k =>
    cases h
    split
    · exact .answer _ _ _
    · split
      · exact .answer _ _ _
      · split <;> exact .answer _ _ _
  | rdCtrl | rdSrate | rdWfreq | rdCmd | rdStatus | rdFpc | rdBpf | rdBlen | rdWrate | rdTmult | rdFidx | rdActl | rdUnmapped k =>
    cases h
    exact .answer _ _ _
  | wrFpc data | wrBpf data | wrBlen data | wrWrate data | wrTmult data | wrFidx data | wrActl data | wrFbuf k data
  | wrUnmapped k data | cmdNop =>
    cases h
    exact quiet _
  | wrCtrl data =>
    cases h
    exact .ctrl data
  | wrSrate data =>
    cases h
    exact .srate data
  | wrWfreq data =>
    cases h
    exact .wfreq data
  | wrStatus data =>
    cases h
    exact .clear data
  | cmdInvalid data =>
    cases h
    exact .error _ _ (.inr (.inr ⟨data, rfl⟩))
  | reset =>
    cases h
    exact .reset
  | cmdStart =>
    replace h : execCmdStart s = .next t := h
    unfold execCmdStart at h
    split at h
    · cases h
      exact .error _ _ (.inl rfl)
    · rename_i g hg
      cases h
      exact .start g hg
  | cmdRelease =>
    replace h : execCmdRelease s = .next t := h
    unfold execCmdRelease at h
    split at h
    · cases h
      exact .error _ _ (.inr (.inl rfl))
    · rename_i hs
      cases h
      exact .release (by simpa using hs)
  | engFrame =>
    rcases execEngFrame_next h with ⟨-, rfl⟩ | ⟨hb, hi, c, words, hc, hw, hf, rfl⟩
    · exact quiet _
    · exact .frame c words hb hi hc hw hf

end Sys2Proof.Machine
end

