-- ==== Sys2Proof/Laws/Packer.lean ====
section
/-! SUPPORT. The words of a frame and of a cycle: what each packed word holds (spec/41_packer.md R122 to R124), and where frame `i` stands
in the cycle's buffer (R121). -/

namespace Sys2Proof.Machine

@[simp] theorem pack16_high (c : Cfg) (N i w : Nat) :
    (pack16 c N i w).extractLsb' 16 16 = BitVec.ofInt 16 (synth c N i (2 * w)).1 := by
  apply BitVec.eq_of_getLsbD_eq
  intro n hn
  simp only [pack16, BitVec.getLsbD_extractLsb', BitVec.getLsbD_append]
  simp [hn]

@[simp] theorem pack16_low (c : Cfg) (N i w : Nat) :
    (pack16 c N i w).extractLsb' 0 16 = BitVec.ofInt 16 (synth c N i (2 * w + 1)).1 := by
  apply BitVec.eq_of_getLsbD_eq
  intro n hn
  simp only [pack16, BitVec.getLsbD_extractLsb', BitVec.getLsbD_append]
  simp [hn]

@[simp] theorem pack24_sample (c : Cfg) (N i j : Nat) :
    (pack24 c N i j).extractLsb' 8 24 = BitVec.ofInt 24 (synth c N i j).1 := by
  apply BitVec.eq_of_getLsbD_eq
  intro n hn
  simp only [pack24, BitVec.getLsbD_extractLsb', BitVec.getLsbD_append]
  simp [hn]

@[simp] theorem pack24_low (c : Cfg) (N i j : Nat) : (pack24 c N i j).extractLsb' 0 8 = BitVec.ofNat 8 (synth c N i j).2 := by
  apply BitVec.eq_of_getLsbD_eq
  intro n hn
  simp only [pack24, BitVec.getLsbD_extractLsb', BitVec.getLsbD_append]
  simp [hn]

/-- The low part of a channel fits its byte (40_synthesizer R106). -/
theorem synth_low_lt (c : Cfg) (N i j : Nat) (hj : j < 16) : (synth c N i j).2 < 256 := by
  unfold synth
  split
  · exact lt_trans hj (by norm_num)
  · norm_num

theorem pack24_toNat (c : Cfg) (N i j : Nat) (hj : j < 16) :
    (pack24 c N i j).toNat = (BitVec.ofInt 24 (synth c N i j).1).toNat * 256 + (synth c N i j).2 := by
  have h := synth_low_lt c N i j hj
  rw [pack24, BitVec.toNat_append, Nat.shiftLeft_eq, BitVec.toNat_ofNat, Nat.mod_eq_of_lt h, mul_comm,
    ← Nat.two_pow_add_eq_or_of_lt h]

/-- Word `w` of a (16, 16) frame. -/
theorem pack_get16 {c : Cfg} (hb : c.b = 16) (hW : c.W = 16) {N i w : Nat} {words : List Word} (h : pack c N i = some words)
    (hw : w < c.C / 2) : words[w]? = some (pack16 c N i w) := by
  simp only [pack, hb, hW, if_true, Option.some.injEq] at h
  simp [← h, hw]

/-- Word `j` of a (24, 32) frame. -/
theorem pack_get24 {c : Cfg} (hb : c.b = 24) (hW : c.W = 32) {N i j : Nat} {words : List Word} (h : pack c N i = some words)
    (hj : j < c.C) : words[j]? = some (pack24 c N i j) := by
  rw [pack, if_neg (by simp [hb]), if_pos (by simp [hb, hW])] at h
  simp [← Option.some.inj h, hj]

/-- Word `j` of a (32, 32) frame. -/
theorem pack_get32 {c : Cfg} (hb : c.b = 32) (hW : c.W = 32) {N i j : Nat} {words : List Word} (h : pack c N i = some words)
    (hj : j < c.C) : words[j]? = some (pack32 c N i j) := by
  rw [pack, if_neg (by simp [hb]), if_neg (by simp [hb]), if_pos (by simp [hb, hW])] at h
  simp [← Option.some.inj h, hj]

/-- Pieces of one length, put one after another. -/
theorem length_flatMap_range {α : Type} (f : Nat → List α) (m N : Nat) (hl : ∀ i, i < N → (f i).length = m) :
    ((List.range N).flatMap f).length = N * m := by
  induction N with
  | zero => simp
  | succ N ih =>
    rw [List.range_succ, List.flatMap_append, List.length_append, ih fun i hi => hl i (by omega)]
    simp [hl N (by omega), Nat.succ_mul]

/-- The element `k` of piece `i`. -/
theorem getElem_flatMap_range {α : Type} (f : Nat → List α) (m N i k : Nat) (hl : ∀ i, i < N → (f i).length = m) (hi : i < N)
    (hk : k < m) : ((List.range N).flatMap f)[i * m + k]? = (f i)[k]? := by
  induction N with
  | zero => omega
  | succ N ih =>
    have hlen := length_flatMap_range f m N fun i hi => hl i (by omega)
    rw [List.range_succ, List.flatMap_append, List.flatMap_cons, List.flatMap_nil, List.append_nil]
    rcases Nat.lt_succ_iff_lt_or_eq.mp hi with h | rfl
    · have hlt : i * m + k < N * m := lt_of_lt_of_le (by rw [Nat.succ_mul]; omega) (Nat.mul_le_mul_right m h)
      rw [List.getElem?_append_left (by omega)]
      exact ih (fun i h => hl i (by omega)) h
    · rw [List.getElem?_append_right (by omega), hlen]
      congr 1
      omega

/-- The cycle's words fill `N` frames (41_packer R121). -/
theorem cycleWords_length {ctrl : BitVec 7} {c : Cfg} (h : legalCfg ctrl = some c) (N : Nat) :
    (cycleWords c N).length = N * wordsPerFrame c.C c.W := by
  refine length_flatMap_range _ _ _ fun i _ => ?_
  obtain ⟨words, hw, hl⟩ := pack_legal h N i
  simp [hw, hl]

/-- Word `w` of frame `i` stands at `i·WPF + w` of the cycle's words (41_packer R121). -/
theorem cycleWords_get {ctrl : BitVec 7} {c : Cfg} (h : legalCfg ctrl = some c) {N i w : Nat} {words : List Word} (hi : i < N)
    (hw : w < wordsPerFrame c.C c.W) (hp : pack c N i = some words) :
    (cycleWords c N)[i * wordsPerFrame c.C c.W + w]? = words[w]? := by
  unfold cycleWords
  rw [getElem_flatMap_range _ (wordsPerFrame c.C c.W) N i w (fun i _ => ?_) hi hw, hp]
  · rfl
  · obtain ⟨words, hw, hl⟩ := pack_legal h N i
    simp [hw, hl]

end Sys2Proof.Machine
end

