-- ==== Sys2Proof/Laws/PerInstr.lean ====
section
/-! SUPPORT. Statements for all operations, one lemma per constructor. EncodeAligned: the transaction an operation encodes to has
`ADDR[1:0] = 0b00`, so that no encoded operation is refused as misaligned (spec/20_memory.md R56). -/

namespace Sys2Proof.Laws.EncodeAligned

/-- The transaction that an operation encodes to, where it has one, is aligned. -/
def Statement (i : Instr) : Prop := ∀ w, encode i = some w → w.extractLsb' 32 2 = 0#2

/-- An aligned address makes an aligned transaction. -/
theorem of_address (write : Bool) (addr : BitVec 32) (data : Word) (h : addr.extractLsb' 0 2 = 0#2) :
    (transaction write addr data).extractLsb' 32 2 = 0#2 := by
  rw [← addrOf_low, addrOf_transaction, h]

theorem rdCtrl : Statement .rdCtrl := fun _ h => Option.some.inj h ▸ of_address _ _ _ (by decide)

theorem wrCtrl (data : Word) : Statement (.wrCtrl data) := fun _ h => Option.some.inj h ▸ of_address _ _ _ (by decide)

theorem rdSrate : Statement .rdSrate := fun _ h => Option.some.inj h ▸ of_address _ _ _ (by decide)

theorem wrSrate (data : Word) : Statement (.wrSrate data) := fun _ h => Option.some.inj h ▸ of_address _ _ _ (by decide)

theorem rdWfreq : Statement .rdWfreq := fun _ h => Option.some.inj h ▸ of_address _ _ _ (by decide)

theorem wrWfreq (data : Word) : Statement (.wrWfreq data) := fun _ h => Option.some.inj h ▸ of_address _ _ _ (by decide)

theorem rdCmd : Statement .rdCmd := fun _ h => Option.some.inj h ▸ of_address _ _ _ (by decide)

theorem cmdNop : Statement .cmdNop := fun _ h => Option.some.inj h ▸ of_address _ _ _ (by decide)

theorem cmdStart : Statement .cmdStart := fun _ h => Option.some.inj h ▸ of_address _ _ _ (by decide)

theorem cmdRelease : Statement .cmdRelease := fun _ h => Option.some.inj h ▸ of_address _ _ _ (by decide)

theorem cmdInvalid (data : Word) : Statement (.cmdInvalid data) := fun _ h => Option.some.inj h ▸ of_address _ _ _ (by decide)

theorem rdStatus : Statement .rdStatus := fun _ h => Option.some.inj h ▸ of_address _ _ _ (by decide)

theorem wrStatus (data : Word) : Statement (.wrStatus data) := fun _ h => Option.some.inj h ▸ of_address _ _ _ (by decide)

theorem rdFpc : Statement .rdFpc := fun _ h => Option.some.inj h ▸ of_address _ _ _ (by decide)

theorem wrFpc (data : Word) : Statement (.wrFpc data) := fun _ h => Option.some.inj h ▸ of_address _ _ _ (by decide)

theorem rdBpf : Statement .rdBpf := fun _ h => Option.some.inj h ▸ of_address _ _ _ (by decide)

theorem wrBpf (data : Word) : Statement (.wrBpf data) := fun _ h => Option.some.inj h ▸ of_address _ _ _ (by decide)

theorem rdBlen : Statement .rdBlen := fun _ h => Option.some.inj h ▸ of_address _ _ _ (by decide)

theorem wrBlen (data : Word) : Statement (.wrBlen data) := fun _ h => Option.some.inj h ▸ of_address _ _ _ (by decide)

theorem rdWrate : Statement .rdWrate := fun _ h => Option.some.inj h ▸ of_address _ _ _ (by decide)

theorem wrWrate (data : Word) : Statement (.wrWrate data) := fun _ h => Option.some.inj h ▸ of_address _ _ _ (by decide)

theorem rdTmult : Statement .rdTmult := fun _ h => Option.some.inj h ▸ of_address _ _ _ (by decide)

theorem wrTmult (data : Word) : Statement (.wrTmult data) := fun _ h => Option.some.inj h ▸ of_address _ _ _ (by decide)

theorem rdFidx : Statement .rdFidx := fun _ h => Option.some.inj h ▸ of_address _ _ _ (by decide)

theorem wrFidx (data : Word) : Statement (.wrFidx data) := fun _ h => Option.some.inj h ▸ of_address _ _ _ (by decide)

theorem rdActl : Statement .rdActl := fun _ h => Option.some.inj h ▸ of_address _ _ _ (by decide)

theorem wrActl (data : Word) : Statement (.wrActl data) := fun _ h => Option.some.inj h ▸ of_address _ _ _ (by decide)

theorem rdFbuf (k : WordIndex) : Statement (.rdFbuf k) := fun _ h => Option.some.inj h ▸ of_address _ _ _ (windowAddr_low k)

theorem wrFbuf (k : WordIndex) (data : Word) : Statement (.wrFbuf k data) := fun _ h => Option.some.inj h ▸ of_address _ _ _ (windowAddr_low k)

theorem rdUnmapped (k : WordIndex) : Statement (.rdUnmapped k) := fun _ h => Option.some.inj h ▸ of_address _ _ _ (lowAddr_low k)

theorem wrUnmapped (k : WordIndex) (data : Word) : Statement (.wrUnmapped k data) := fun _ h => Option.some.inj h ▸ of_address _ _ _ (lowAddr_low k)

theorem engFrame : Statement .engFrame := fun _ h => nomatch h

theorem reset : Statement .reset := fun _ h => nomatch h

end Sys2Proof.Laws.EncodeAligned
end

