-- ==== Sys2Proof/Laws/Sine.lean ====
section
/-! SUPPORT. The integer procedure of Machine/Synth.lean against the real sine: `sineAtLeast` decides `k ≤ s·sin(2πi/N)`, and `greatest`
finds the greatest number a downward closed test allows (spec/40_synthesizer.md R103, log 5). -/

namespace Sys2Proof.Machine

open Real

/-- An angle of `q` quarter turns and less than one more has an odd `q` exactly where its point lies in the second or fourth quadrant. -/
theorem odd_quarter_iff (α : ℝ) (hα : 0 ≤ α) :
    ⌊α / (π / 2)⌋₊ % 2 = 1 ↔ (cos α ≤ 0 ∧ 0 < sin α) ∨ (0 ≤ cos α ∧ sin α < 0) := by
  have hpi := Real.pi_pos
  set q := ⌊α / (π / 2)⌋₊ with hq
  have hlo : (q : ℝ) ≤ α / (π / 2) := Nat.floor_le (by positivity)
  have hhi : α / (π / 2) < q + 1 := Nat.lt_floor_add_one _
  rw [le_div_iff₀ (by positivity)] at hlo
  rw [div_lt_iff₀ (by positivity)] at hhi
  obtain ⟨β, hβ⟩ : ∃ β, β = α - q * (π / 2) := ⟨_, rfl⟩
  have hβ0 : 0 ≤ β := by linarith
  have hβ1 : β < π / 2 := by linarith
  have hcos : 0 < cos β := cos_pos_of_mem_Ioo ⟨by linarith, hβ1⟩
  have hsin : 0 ≤ sin β := sin_nonneg_of_nonneg_of_le_pi hβ0 (by linarith)
  have hqm : (q : ℝ) = 4 * (q / 4 : ℕ) + (q % 4 : ℕ) := by exact_mod_cast (Nat.div_add_mod q 4).symm
  have hαq : α = (β + (q % 4 : ℕ) * (π / 2)) + (q / 4 : ℕ) * (2 * π) := by rw [hβ, hqm]; ring
  have hc : cos α = cos (β + (q % 4 : ℕ) * (π / 2)) := by
    conv_lhs => rw [hαq]
    exact cos_add_nat_mul_two_pi _ _
  have hs : sin α = sin (β + (q % 4 : ℕ) * (π / 2)) := by
    conv_lhs => rw [hαq]
    exact sin_add_nat_mul_two_pi _ _
  have h4 : q % 4 < 4 := Nat.mod_lt _ (by norm_num)
  have h2 : q % 2 = (q % 4) % 2 := by omega
  rw [hc, hs, h2]
  generalize q % 4 = r at h4
  interval_cases r
  · simp; constructor <;> intros <;> linarith
  · simp [cos_add_pi_div_two, sin_add_pi_div_two, hcos, hsin]
  · have e : β + ((2 : ℕ) : ℝ) * (π / 2) = β + π := by push_cast; ring
    simp only [e, cos_add_pi, sin_add_pi]
    constructor
    · intro h; norm_num at h
    · rintro (h | h) <;> linarith [h.1, h.2]
  · have e : β + ((3 : ℕ) : ℝ) * (π / 2) = (β + π / 2) + π := by push_cast; ring
    rw [e]
    simp [cos_add_pi, sin_add_pi, cos_add_pi_div_two, sin_add_pi_div_two, hcos, hsin]

/-- `nextTurns` counts the quarter turns of the angle `α`, given its point and the count to within one. -/
theorem nextTurns_eq (q : ℕ) (x y : ℤ) (α r t : ℝ) (hα : 0 ≤ α) (hr : 0 < r) (ht : 0 ≤ t) (hx : (x : ℝ) = r * cos α)
    (hy : y * t = r * sin α) (h0 : t = 0 → 0 ≤ y ∧ 0 < x) (hlo : q ≤ ⌊α / (π / 2)⌋₊) (hhi : ⌊α / (π / 2)⌋₊ ≤ q + 1) :
    nextTurns q x y = ⌊α / (π / 2)⌋₊ := by
  have hodd := odd_quarter_iff α hα
  have hxn : x ≤ 0 ↔ cos α ≤ 0 := by
    rw [← not_lt, ← not_lt (b := cos α), ← Int.cast_pos (R := ℝ), hx, mul_pos_iff_of_pos_left hr]
  have hxp : 0 ≤ x ↔ 0 ≤ cos α := by
    rw [← Int.cast_nonneg_iff (R := ℝ), hx, mul_nonneg_iff_of_pos_left hr]
  have hkey : ((x ≤ 0 ∧ 0 < y) ∨ (0 ≤ x ∧ y < 0)) ↔ ⌊α / (π / 2)⌋₊ % 2 = 1 := by
    rw [hodd]
    rcases ht.eq_or_lt with h | h
    · have hs : sin α = 0 := by
        have : r * sin α = 0 := by rw [← hy, ← h, mul_zero]
        exact (mul_eq_zero.mp this).resolve_left hr.ne'
      obtain ⟨hy0, hx0⟩ := h0 h.symm
      simp only [hs, lt_irrefl, and_false, or_false, iff_false]
      omega
    · have hyp : 0 < y ↔ 0 < sin α := by
        rw [← Int.cast_pos (R := ℝ), ← mul_pos_iff_of_pos_right h, hy, mul_pos_iff_of_pos_left hr]
      have hyn : y < 0 ↔ sin α < 0 := by
        rw [← not_le, ← not_le (b := sin α), ← Int.cast_nonneg_iff (R := ℝ), ← mul_nonneg_iff_of_pos_right h, hy,
          mul_nonneg_iff_of_pos_left hr]
      rw [hxn, hxp, hyp, hyn]
  unfold nextTurns
  simp only [← Bool.decide_and, ← Bool.decide_or, hkey]
  generalize ⌊α / (π / 2)⌋₊ = Q at *
  rcases Nat.mod_two_eq_zero_or_one Q with h | h <;> rcases Nat.mod_two_eq_zero_or_one q with h' | h' <;> simp [h, h'] <;> omega

/-- What `powerTurns` finds of the `n`-fold of the angle `φ` of the point `(k, t)` on the circle of radius `s`. -/
theorem powerTurns_spec (s k D : ℤ) (φ t : ℝ) (hs : 0 < s) (hφ0 : 0 ≤ φ) (hφ1 : φ ≤ π / 2) (hk : (k : ℝ) = s * cos φ)
    (ht : t = s * sin φ) (hD : (D : ℝ) = t * t) (hk0 : t = 0 → 0 < k) (fuel n : ℕ) (hn : n < 2 ^ fuel) :
    ∃ x y, powerTurns k D fuel n = (x, y, ⌊n * φ / (π / 2)⌋₊) ∧ (x : ℝ) = s ^ n * cos (n * φ) ∧
      y * t = s ^ n * sin (n * φ) ∧ (t = 0 → 0 ≤ y ∧ 0 < x) := by
  have hpi := Real.pi_pos
  have hsR : (0 : ℝ) < s := by exact_mod_cast hs
  have ht0 : 0 ≤ t := by rw [ht]; exact mul_nonneg hsR.le (sin_nonneg_of_nonneg_of_le_pi hφ0 (by linarith))
  induction fuel generalizing n with
  | zero =>
    obtain rfl : n = 0 := by simpa using hn
    exact ⟨1, 0, by simp [powerTurns], by simp, by simp, by simp⟩
  | succ fuel ih =>
    unfold powerTurns
    rcases Nat.eq_zero_or_pos n with rfl | hpos
    · exact ⟨1, 0, by simp, by simp, by simp, by simp⟩
    obtain ⟨x, y, hpt, hx, hy, h0⟩ := ih (n / 2) (by rw [pow_succ] at hn; omega)
    set m := n / 2 with hm
    have hα : (0 : ℝ) ≤ m * φ := by positivity
    -- doubling
    have hx2 : ((x * x - D * (y * y) : ℤ) : ℝ) = s ^ (2 * m) * cos ((2 * m : ℕ) * φ) := by
      push_cast
      have e : (2 * (m : ℝ)) * φ = 2 * (m * φ) := by ring
      have hyy : (D : ℝ) * (y * y) = (y * t) * (y * t) := by rw [hD]; ring
      rw [hyy, hx, hy, e, cos_two_mul']; ring
    have hy2 : ((2 * (x * y) : ℤ) : ℝ) * t = s ^ (2 * m) * sin ((2 * m : ℕ) * φ) := by
      push_cast
      have e : (2 * (m : ℝ)) * φ = 2 * (m * φ) := by ring
      have : 2 * ((x : ℝ) * y) * t = 2 * x * (y * t) := by ring
      rw [this, hx, hy, e, sin_two_mul]; ring
    have h02 : t = 0 → 0 ≤ 2 * (x * y) ∧ 0 < x * x - D * (y * y) := by
      intro h
      obtain ⟨hy0, hx0⟩ := h0 h
      have hD0 : D = 0 := by
        have : (D : ℝ) = 0 := by rw [hD, h, mul_zero]
        exact_mod_cast this
      subst hD0
      exact ⟨by positivity, by nlinarith⟩
    have hlo2 : 2 * ⌊m * φ / (π / 2)⌋₊ ≤ ⌊(2 * m : ℕ) * φ / (π / 2)⌋₊ := by
      apply Nat.le_floor
      have := Nat.floor_le (show 0 ≤ m * φ / (π / 2) by positivity)
      push_cast
      calc (2 : ℝ) * ⌊m * φ / (π / 2)⌋₊ ≤ 2 * (m * φ / (π / 2)) := by linarith
        _ = 2 * m * φ / (π / 2) := by ring
    have hhi2 : ⌊(2 * m : ℕ) * φ / (π / 2)⌋₊ ≤ 2 * ⌊m * φ / (π / 2)⌋₊ + 1 := by
      apply Nat.le_of_lt_succ
      rw [Nat.floor_lt (by positivity)]
      have := Nat.lt_floor_add_one (m * φ / (π / 2))
      push_cast
      calc 2 * m * φ / (π / 2) = 2 * (m * φ / (π / 2)) := by ring
        _ < 2 * ⌊m * φ / (π / 2)⌋₊ + 1 + 1 := by linarith
    have hq2 := nextTurns_eq (2 * ⌊m * φ / (π / 2)⌋₊) (x * x - D * (y * y)) (2 * (x * y)) ((2 * m : ℕ) * φ) (s ^ (2 * m)) t
      (by positivity) (by positivity) ht0 hx2 hy2 h02 hlo2 hhi2
    simp only [hpos.ne', if_false, hpt, hq2]
    rcases Nat.mod_two_eq_zero_or_one n with hmod | hmod
    · have hn2 : 2 * m = n := by omega
      rw [if_pos hmod]
      exact ⟨_, _, by rw [hn2], by rw [hx2, hn2], by rw [hy2, hn2], h02⟩
    · have hn2 : 2 * m + 1 = n := by omega
      rw [if_neg (by omega)]
      -- one more factor
      have e : ((2 * m + 1 : ℕ) : ℝ) * φ = (2 * m : ℕ) * φ + φ := by push_cast; ring
      have hx3 : ((k * (x * x - D * (y * y)) - D * (2 * (x * y)) : ℤ) : ℝ) = s ^ (2 * m + 1) * cos ((2 * m + 1 : ℕ) * φ) := by
        have : ((k * (x * x - D * (y * y)) - D * (2 * (x * y)) : ℤ) : ℝ) =
            k * ((x * x - D * (y * y) : ℤ) : ℝ) - t * (((2 * (x * y) : ℤ) : ℝ) * t) := by push_cast; rw [hD]; ring
        rw [this, hx2, hy2, e, cos_add, hk, ht]; ring
      have hy3 : ((x * x - D * (y * y) + k * (2 * (x * y)) : ℤ) : ℝ) * t = s ^ (2 * m + 1) * sin ((2 * m + 1 : ℕ) * φ) := by
        have : ((x * x - D * (y * y) + k * (2 * (x * y)) : ℤ) : ℝ) * t =
            ((x * x - D * (y * y) : ℤ) : ℝ) * t + k * (((2 * (x * y) : ℤ) : ℝ) * t) := by push_cast; ring
        rw [this, hx2, hy2, e, sin_add, hk, ht]; ring
      have h03 : t = 0 → 0 ≤ x * x - D * (y * y) + k * (2 * (x * y)) ∧ 0 < k * (x * x - D * (y * y)) - D * (2 * (x * y)) := by
        intro h
        obtain ⟨hy0, hx0⟩ := h02 h
        have hD0 : D = 0 := by
          have : (D : ℝ) = 0 := by rw [hD, h, mul_zero]
          exact_mod_cast this
        have hkp := hk0 h
        subst hD0
        simp only [zero_mul, sub_zero] at *
        exact ⟨by positivity, by positivity⟩
      have hφ2 : φ / (π / 2) ≤ 1 := by rw [div_le_one (by positivity)]; exact hφ1
      have hφ3 : 0 ≤ φ / (π / 2) := by positivity
      have e' : ((2 * m + 1 : ℕ) : ℝ) * φ / (π / 2) = (2 * m : ℕ) * φ / (π / 2) + φ / (π / 2) := by rw [e]; ring
      have hlo3 : ⌊(2 * m : ℕ) * φ / (π / 2)⌋₊ ≤ ⌊(2 * m + 1 : ℕ) * φ / (π / 2)⌋₊ := by
        apply Nat.floor_le_floor
        rw [e']; linarith
      have hhi3 : ⌊(2 * m + 1 : ℕ) * φ / (π / 2)⌋₊ ≤ ⌊(2 * m : ℕ) * φ / (π / 2)⌋₊ + 1 := by
        rw [← Nat.floor_add_one (by positivity)]
        apply Nat.floor_le_floor
        rw [e']; linarith
      have hq3 := nextTurns_eq _ (k * (x * x - D * (y * y)) - D * (2 * (x * y))) (x * x - D * (y * y) + k * (2 * (x * y)))
        ((2 * m + 1 : ℕ) * φ) (s ^ (2 * m + 1)) t (by positivity) (by positivity) ht0 hx3 hy3 h03 hlo3 hhi3
      rw [hq3, hn2]
      exact ⟨_, _, rfl, by rw [hx3, hn2], by rw [hy3, hn2], h03⟩

/-- `sineAtLeast` decides whether `k` is at most `s·sin(2πi/N)`, exactly (40_synthesizer R103). -/
theorem sineAtLeast_iff (s N i k : ℕ) (hs : 0 < s) (hN : 0 < N) (hi : 2 * i ≤ N) :
    sineAtLeast s N i k = true ↔ (k : ℝ) ≤ s * sin (2 * π * i / N) := by
  have hpi := Real.pi_pos
  have hsR : (0 : ℝ) < s := by exact_mod_cast hs
  have hNR : (0 : ℝ) < N := by exact_mod_cast hN
  have hiR : 2 * (i : ℝ) ≤ N := by exact_mod_cast hi
  unfold sineAtLeast
  rw [Bool.and_eq_true, decide_eq_true_iff, decide_eq_true_iff]
  rcases lt_or_ge s k with hks | hks
  · have h1 : (s : ℝ) < k := by exact_mod_cast hks
    have h2 : (s : ℝ) * sin (2 * π * i / N) ≤ s := by nlinarith [sin_le_one (2 * π * i / N)]
    constructor
    · intro h; omega
    · intro h; linarith
  have hks' : (k : ℝ) ≤ s := by exact_mod_cast hks
  have hk0 : (0 : ℝ) ≤ k / s := by positivity
  have hk1 : (k : ℝ) / s ≤ 1 := by rw [div_le_one hsR]; exact hks'
  obtain ⟨φ, hφ⟩ : ∃ φ, φ = arccos (k / s) := ⟨_, rfl⟩
  have hφ0 : 0 ≤ φ := hφ ▸ arccos_nonneg _
  have hφ1 : φ ≤ π / 2 := hφ ▸ arccos_le_pi_div_two.mpr hk0
  have hcos : cos φ = k / s := hφ ▸ cos_arccos (by linarith) hk1
  have hk : ((k : ℤ) : ℝ) = (s : ℤ) * cos φ := by rw [hcos]; push_cast; field_simp
  have hD : (((s : ℤ) * s - (k : ℤ) * k : ℤ) : ℝ) = (s * sin φ) * (s * sin φ) := by
    have := sin_sq_add_cos_sq φ
    push_cast at hk ⊢
    rw [hk]; nlinarith
  have h0 : s * sin φ = 0 → 0 < (k : ℤ) := by
    intro h
    have hsin : sin φ = 0 := (mul_eq_zero.mp h).resolve_left hsR.ne'
    have hcp : 0 ≤ cos φ := by rw [hcos]; exact hk0
    have hc1 : cos φ = 1 := by nlinarith [sin_sq_add_cos_sq φ]
    have : (0 : ℝ) < (k : ℤ) := by rw [hk, hc1]; push_cast; linarith
    exact_mod_cast this
  obtain ⟨x, y, hpt, -⟩ := powerTurns_spec (s : ℤ) (k : ℤ) ((s : ℤ) * s - (k : ℤ) * k) φ (s * sin φ) (by exact_mod_cast hs)
    hφ0 hφ1 hk (by push_cast; rfl) hD h0 N N Nat.lt_two_pow_self
  rw [hpt]
  simp only [hks, true_and]
  -- the distance of the angle from a quarter turn
  set c := (4 * (i : ℤ) - (N : ℤ)).natAbs with hc
  have hcR : (c : ℝ) = |4 * (i : ℝ) - N| := by
    rw [hc, Nat.cast_natAbs]; push_cast; rfl
  have hψ : sin (2 * π * i / N) = cos (c * π / (2 * N)) := by
    rw [← cos_pi_div_two_sub, ← cos_abs]
    congr 1
    have : π / 2 - 2 * π * i / N = -((4 * (i : ℝ) - N) * (π / (2 * N))) := by field_simp; ring
    rw [this, abs_neg, abs_mul, ← hcR, abs_of_pos (by positivity : (0 : ℝ) < π / (2 * N))]
    ring
  have hcN : (c : ℝ) ≤ N := by
    rw [hcR, abs_le]; constructor <;> linarith [show (0 : ℝ) ≤ i by positivity]
  have hψ1 : c * π / (2 * N) ≤ π := by
    rw [div_le_iff₀ (by positivity)]; nlinarith
  rw [Nat.le_floor_iff (by positivity), le_div_iff₀ (by positivity), hψ]
  have key : (c : ℝ) * π / (2 * N) ≤ φ ↔ cos φ ≤ cos (c * π / (2 * N)) :=
    (strictAntiOn_cos.le_iff_ge ⟨hφ0, by linarith⟩ ⟨by positivity, hψ1⟩).symm
  rw [hcos, div_le_iff₀ hsR] at key
  rw [mul_comm (s : ℝ), ← key, div_le_iff₀ (by positivity)]
  constructor <;> intro h <;> nlinarith

/-- `greatest` finds the greatest allowed number, where the test is downward closed and allows the number it starts from. -/
theorem greatest_spec (test : ℕ → Bool) (hd : ∀ a b, a ≤ b → test b = true → test a = true) (bits k : ℕ) (h0 : test k = true) :
    k ≤ greatest test bits k ∧ test (greatest test bits k) = true ∧
      ∀ j, j < k + 2 ^ bits → test j = true → j ≤ greatest test bits k := by
  induction bits generalizing k with
  | zero => exact ⟨le_rfl, h0, fun j hj _ => by simpa [greatest] using Nat.lt_succ_iff.mp (by simpa using hj)⟩
  | succ bits ih =>
    unfold greatest
    have hp := Nat.two_pow_pos bits
    split
    · rename_i h
      obtain ⟨h1, h2, h3⟩ := ih (k + 2 ^ bits) h
      exact ⟨by omega, h2, fun j hj ht => h3 j (by rw [pow_succ] at hj; omega) ht⟩
    · rename_i h
      obtain ⟨h1, h2, h3⟩ := ih k h0
      refine ⟨h1, h2, fun j hj ht => ?_⟩
      rcases lt_or_ge j (k + 2 ^ bits) with hlt | hge
      · exact h3 j hlt ht
      · exact absurd (hd _ _ hge ht) h

end Sys2Proof.Machine
end

