-- ==== Sys2Proof/Laws/Table.lean ====
section
/-! SUPPORT. When a row of the opcode table accepts a transaction, in the transaction's three fields, and how heavy each mask is
(spec/30_encoding.md R71, R72): what a proof about `decodeByTable` needs in place of 65-bit arithmetic. -/

namespace Sys2Proof

theorem transaction_and (w w' : Bool) (a a' : BitVec 32) (d d' : Word) :
    transaction w a d &&& transaction w' a' d' = transaction (w && w') (a &&& a') (d &&& d') := by
  unfold transaction
  rw [BitVec.and_append, BitVec.and_append]
  cases w <;> cases w' <;> rfl

theorem transaction_inj (w w' : Bool) (a a' : BitVec 32) (d d' : Word) :
    transaction w a d = transaction w' a' d' ↔ w = w' ∧ a = a' ∧ d = d' := by
  constructor
  · intro h
    exact ⟨by simpa using congrArg isWrite h, by simpa using congrArg addrOf h, by simpa using congrArg dataOf h⟩
  · rintro ⟨rfl, rfl, rfl⟩
    rfl

/-- A mask over `RW` and all of `ADDR`. -/
theorem mask_register : 0x1FFFFFFFF00000000#65 = transaction true (BitVec.allOnes 32) 0 := by decide

/-- A mask over every bit. -/
theorem mask_command : 0x1FFFFFFFFFFFFFFFF#65 = transaction true (BitVec.allOnes 32) (BitVec.allOnes 32) := by decide

/-- A mask over `RW`, `ADDR[31]` and `ADDR[1:0]`. -/
theorem mask_default : 0x18000000300000000#65 = transaction true (0x80000003#32) 0 := by decide

theorem maskWeight_register : maskWeight 0x1FFFFFFFF00000000#65 = 33 := by decide +kernel

theorem maskWeight_command : maskWeight 0x1FFFFFFFFFFFFFFFF#65 = 65 := by decide +kernel

theorem maskWeight_default : maskWeight 0x18000000300000000#65 = 4 := by decide +kernel

/-- A row for one register goes by `RW` and `ADDR`. -/
theorem accepts_register (n : String) (p : HT) (b : HT → Instr) (w : Bool) (a : BitVec 32) (d : Word) :
    (OpcodeRow.mk n 0x1FFFFFFFF00000000#65 p b).accepts (transaction w a d) =
      (decide (w = isWrite p) && decide (a = addrOf p) && decide (dataOf p = 0)) := by
  conv_lhs => rw [OpcodeRow.accepts, mask_register, ← transaction_fields p]
  simp only [transaction_and, Bool.beq_eq_decide_eq, transaction_inj]
  simp only [Bool.and_true, BitVec.and_allOnes, Bool.decide_and, Bool.and_assoc]
  simp [eq_comm]

/-- A row for one command code goes by every bit. -/
theorem accepts_command (n : String) (p : HT) (b : HT → Instr) (w : Bool) (a : BitVec 32) (d : Word) :
    (OpcodeRow.mk n 0x1FFFFFFFFFFFFFFFF#65 p b).accepts (transaction w a d) =
      (decide (w = isWrite p) && decide (a = addrOf p) && decide (d = dataOf p)) := by
  conv_lhs => rw [OpcodeRow.accepts, mask_command, ← transaction_fields p]
  simp only [transaction_and, Bool.beq_eq_decide_eq, transaction_inj]
  simp only [Bool.and_true, BitVec.and_allOnes, Bool.decide_and, Bool.and_assoc]

/-- A row for a whole half of the address space goes by `RW`, `ADDR[31]` and `ADDR[1:0]`. -/
theorem accepts_default (n : String) (p : HT) (b : HT → Instr) (w : Bool) (a : BitVec 32) (d : Word) :
    (OpcodeRow.mk n 0x18000000300000000#65 p b).accepts (transaction w a d) =
      (decide (w = isWrite p) && decide (a &&& 0x80000003#32 = addrOf p) && decide (dataOf p = 0)) := by
  conv_lhs => rw [OpcodeRow.accepts, mask_default, ← transaction_fields p]
  simp only [transaction_and, Bool.beq_eq_decide_eq, transaction_inj]
  simp only [Bool.and_true, Bool.decide_and, Bool.and_assoc]
  simp [eq_comm]

/-- What is left of an aligned address under the mask of the default rows. -/
theorem and_mask_default (a : BitVec 32) (h : a.extractLsb' 0 2 = 0#2) :
    a &&& 0x80000003#32 = if a.msb then 0x80000000#32 else 0#32 := by
  have key : ∀ (b : Bool) (k : WordIndex), (BitVec.ofBool b ++ k ++ 0#2 : BitVec 32) &&& (1#1 ++ 0#29 ++ 3#2 : BitVec 32) =
      if b then 0x80000000#32 else 0#32 := by
    intro b k
    rw [BitVec.and_append, BitVec.and_append]
    cases b <;> simp
  cases hm : a.msb
  · rw [← lowAddr_wordIndexOf a h hm]
    exact key false _
  · rw [← windowAddr_wordIndexOf a h hm]
    exact key true _

/-- Filtering one row at a time, so that the rows that accept can be worked out in turn. -/
theorem filter_cons_bif {α : Type} (p : α → Bool) (a : α) (l : List α) :
    (a :: l).filter p = (bif p a then [a] else []) ++ l.filter p := by
  cases h : p a <;> simp [h]

/-- No address from `0x30` up is a register (10_state R23). -/
theorem lowAddr_ne_register (k : WordIndex) (h : 12 ≤ k.toNat) (n : Nat) (hn : n < 12) : lowAddr k ≠ BitVec.ofNat 32 (4 * n) := by
  intro he
  have := congrArg BitVec.toNat he
  rw [lowAddr_toNat, BitVec.toNat_ofNat, Nat.mod_eq_of_lt (by omega)] at this
  omega

/-- Every word below `0x8000_0000` from `0x30` up decodes to the default rows (10_state R23, 30_encoding R72). -/
theorem decodeLow_unmapped (k : WordIndex) (h : 12 ≤ k.toNat) (data : Word) :
    decodeLowRead (lowAddr k) = .rdUnmapped k ∧ decodeLowWrite (lowAddr k) data = .wrUnmapped k data := by
  have none_of := fun n hn => lowAddr_ne_register k h n hn
  have h0 := none_of 0 (by decide)
  have h1 := none_of 1 (by decide)
  have h2 := none_of 2 (by decide)
  have h3 := none_of 3 (by decide)
  have h4 := none_of 4 (by decide)
  have h5 := none_of 5 (by decide)
  have h6 := none_of 6 (by decide)
  have h7 := none_of 7 (by decide)
  have h8 := none_of 8 (by decide)
  have h9 := none_of 9 (by decide)
  have h10 := none_of 10 (by decide)
  have h11 := none_of 11 (by decide)
  clear none_of
  simp only [Nat.reduceMul] at h0 h1 h2 h3 h4 h5 h6 h7 h8 h9 h10 h11
  constructor
  · simp [decodeLowRead]
  · simp [decodeLowWrite]

end Sys2Proof
end

