-- ==== Sys2Proof/Tests/Slice0.lean ====
section
/-! SUPPORT. The model's own tests: ill-formed terms, transactions written out bit by bit from spec/30_encoding.md R72, single steps with
the results of spec/95_test_vectors.md, and for every statement that has hypotheses the states and operands that meet them. -/

namespace Sys2Proof.Tests

open Sys2Proof.Machine

/-! ### Helpers -/

/-- The state an operation leaves, or the state it found where it stops. -/
def after (i : Instr) (s : State) : State :=
  match exec i s with
  | .next t => t
  | .fault _ | .refused _ => s

/-- The state one step leaves. -/
def stepped (s : State) : State :=
  match step s with
  | .next t => t
  | .fault _ | .refused _ => s

/-- IDLE after reset, with FBUF of 16384 bytes, as in V-RG-7. -/
def idle : State := { State.reset with capCode := 4095 }

/-- IDLE, and configured by CTRL, SRATE and WFREQ. -/
def configured (ctrl : BitVec 7) (srate wfreq : Word) : State := { idle with ctrl := ctrl, srate := srate, wfreq := wfreq }

/-- BUSY in a diagnostic cycle of 3 frames of 4 channels of 32 bits, at frame `fidx`, as in V-EN-1. -/
def busy (fidx : Word) : State :=
  { idle with ctrl := 0x62, srate := 3, wfreq := 1, seq := BUSY, fpc := 3, bpf := 16, blen := 48, wrate := 6, tmult := 2,
              fidx := fidx, actl := 0x62 }

/-- READY with the one frame of a 16-bit diagnostic cycle of 4 channels in FBUF (V-PK-4). -/
def ready : State :=
  { idle with ctrl := 0x40, srate := 5, wfreq := 5, seq := READY, fpc := 1, bpf := 8, blen := 8, wrate := 10, tmult := 2, fidx := 1,
              actl := 0x40, mem := Memory.writeWords [] fbufBase [0x00010002, 0x00040008] }

/-- Every flag set, with the code of the last error. -/
def flagged : State := { idle with cfgerr := true, allocerr := true, cmderr := true, ecode := 0xB }

/-! ### Well-formedness: a term each check refuses, and its neighbour that passes -/

theorem test_cmdInvalid_has_no_command_code :
    WellFormed (.cmdInvalid 1) = false ∧ WellFormed (.cmdInvalid 2) = false ∧ WellFormed (.cmdInvalid 3) = true := by decide

theorem test_rdUnmapped_has_no_register_address : WellFormed (.rdUnmapped 11) = false ∧ WellFormed (.rdUnmapped 12) = true := by decide

theorem test_wrUnmapped_has_no_register_address :
    WellFormed (.wrUnmapped 11 0) = false ∧ WellFormed (.wrUnmapped 12 0) = true := by decide

/-! ### Decoding, written out from 30_encoding R72 as `RW`, `ADDR`, `DATA` -/

theorem test_decode_config_registers :
    decode (0#1 ++ 0x00000000#32 ++ 0#32 : HT) = .ok .rdCtrl ∧ decode (1#1 ++ 0x00000000#32 ++ 0x25#32 : HT) = .ok (.wrCtrl 0x25) ∧
    decode (0#1 ++ 0x00000004#32 ++ 0#32 : HT) = .ok .rdSrate ∧ decode (1#1 ++ 0x00000004#32 ++ 8#32 : HT) = .ok (.wrSrate 8) ∧
    decode (0#1 ++ 0x00000008#32 ++ 0#32 : HT) = .ok .rdWfreq ∧ decode (1#1 ++ 0x00000008#32 ++ 1#32 : HT) = .ok (.wrWfreq 1) := by
  decide

theorem test_decode_commands :
    decode (0#1 ++ 0x0000000C#32 ++ 0#32 : HT) = .ok .rdCmd ∧ decode (1#1 ++ 0x0000000C#32 ++ 0#32 : HT) = .ok .cmdNop ∧
    decode (1#1 ++ 0x0000000C#32 ++ 1#32 : HT) = .ok .cmdStart ∧ decode (1#1 ++ 0x0000000C#32 ++ 2#32 : HT) = .ok .cmdRelease ∧
    decode (1#1 ++ 0x0000000C#32 ++ 3#32 : HT) = .ok (.cmdInvalid 3) ∧
    decode (1#1 ++ 0x0000000C#32 ++ 0x00000100#32 : HT) = .ok (.cmdInvalid 0x100) := by
  decide

theorem test_decode_status_and_active_registers :
    decode (0#1 ++ 0x00000010#32 ++ 0#32 : HT) = .ok .rdStatus ∧ decode (1#1 ++ 0x00000010#32 ++ 4#32 : HT) = .ok (.wrStatus 4) ∧
    decode (0#1 ++ 0x00000014#32 ++ 0#32 : HT) = .ok .rdFpc ∧ decode (1#1 ++ 0x00000014#32 ++ 5#32 : HT) = .ok (.wrFpc 5) ∧
    decode (0#1 ++ 0x00000018#32 ++ 0#32 : HT) = .ok .rdBpf ∧ decode (1#1 ++ 0x00000018#32 ++ 5#32 : HT) = .ok (.wrBpf 5) ∧
    decode (0#1 ++ 0x0000001C#32 ++ 0#32 : HT) = .ok .rdBlen ∧ decode (1#1 ++ 0x0000001C#32 ++ 5#32 : HT) = .ok (.wrBlen 5) ∧
    decode (0#1 ++ 0x00000020#32 ++ 0#32 : HT) = .ok .rdWrate ∧ decode (1#1 ++ 0x00000020#32 ++ 5#32 : HT) = .ok (.wrWrate 5) := by
  decide

theorem test_decode_more_active_registers :
    decode (0#1 ++ 0x00000024#32 ++ 0#32 : HT) = .ok .rdTmult ∧ decode (1#1 ++ 0x00000024#32 ++ 5#32 : HT) = .ok (.wrTmult 5) ∧
    decode (0#1 ++ 0x00000028#32 ++ 0#32 : HT) = .ok .rdFidx ∧ decode (1#1 ++ 0x00000028#32 ++ 5#32 : HT) = .ok (.wrFidx 5) ∧
    decode (0#1 ++ 0x0000002C#32 ++ 0#32 : HT) = .ok .rdActl ∧ decode (1#1 ++ 0x0000002C#32 ++ 5#32 : HT) = .ok (.wrActl 5) := by
  decide

theorem test_decode_windows :
    decode (0#1 ++ 0x80000000#32 ++ 0#32 : HT) = .ok (.rdFbuf 0) ∧ decode (0#1 ++ 0x8000371C#32 ++ 0#32 : HT) = .ok (.rdFbuf 3527) ∧
    decode (1#1 ++ 0x80000004#32 ++ 7#32 : HT) = .ok (.wrFbuf 1 7) ∧
    decode (0#1 ++ 0x00000030#32 ++ 0#32 : HT) = .ok (.rdUnmapped 12) ∧
    decode (1#1 ++ 0x7FFFFFFC#32 ++ 7#32 : HT) = .ok (.wrUnmapped 0x1FFFFFFF 7) := by
  decide

/-- Bit 64 is `RW`, bit 63 is `ADDR[31]`: the first word of the table's numbering is the low one (log 12). -/
theorem test_decodeTableWord_numbering :
    decodeTableWord 65 (2 ^ 64 + 12 * 2 ^ 32 + 1) = some .cmdStart ∧ decodeTableWord 65 (2 ^ 63 + 4 * 2 ^ 32) = some (.rdFbuf 1) ∧
    decodeTableWord 65 (2 ^ 32) = none ∧ decodeTableWord 72 (2 ^ 65) = none := by
  decide

/-! ### The synthesizer: V-SY-1, V-SY-2, V-SY-4, V-SY-5, V-SY-10, V-SY-11, V-SY-12 -/

theorem test_triangle :
    (List.range 8).map (tri 16 8) = [-24575, -16383, -8191, 1, 8193, 1, -8191, -16383] ∧
    (List.range 6).map (tri 16 6) = [-21844, -10921, 1, 10923, 1, -10921] ∧
    (List.range 5).map (tri 16 5) = [-19659, -6552, 6554, -6552, -19659] ∧
    (List.range 3).map (tri 32 3) = [-715827881, 715827883, -715827881] := by decide

theorem test_triangle_of_a_small_step :
    [24996, 24997, 24998, 24999, 25000, 25001, 25002, 25003, 50000].map (tri 16 50001) = [-3, -2, 0, 0, 1, 0, 0, -2, -32765] := by
  decide

theorem test_sine_16 :
    (List.range 8).map (sine 16 8) = [0, 23169, 32767, 23169, 0, -23169, -32767, -23169] ∧
    (List.range 5).map (sine 16 5) = [0, 31163, 19259, -19259, -31163] := by decide +kernel

theorem test_sine_24_and_32 :
    [1, 2, 3, 5, 7, 9].map (sine 24 12) = [4194303, 7264746, 8388607, 4194303, -4194303, -8388607] ∧
    [1, 2, 3].map (sine 32 5) = [2042378316, 1262259217, -1262259217] := by decide +kernel

theorem test_direction :
    (List.range 8).map (up 8) = [true, true, true, true, true, false, false, false] ∧
    (List.range 7).map (up 7) = [true, true, true, true, false, false, false] ∧ up 1 0 = true ∧ up 2 1 = true := by decide

/-! ### The packer: V-PK-1 to V-PK-7 -/

theorem test_pack_16 :
    pack ⟨16, 4, 16, false⟩ 8 1 = some [0xC0015A81, 0xC0015A81] ∧
    pack ⟨16, 4, 16, true⟩ 8 1 = some [0x00010002, 0x00040008] ∧
    (pack ⟨16, 16, 16, true⟩ 8 0).map (·.drop 6) = some [0x10002000, 0x40008000] := by decide +kernel

theorem test_pack_24_and_32 :
    (pack ⟨24, 16, 32, true⟩ 8 0).map (·.take 4) = some [0x00000100, 0x00000201, 0x00000402, 0x00000803] ∧
    (pack ⟨24, 16, 32, true⟩ 8 0).map (·.drop 15) = some [0x0080000F] ∧
    pack ⟨32, 4, 32, false⟩ 8 6 = some [0xE0000001, 0x80000001, 0xE0000001, 0x80000001] ∧
    pack ⟨24, 4, 24, false⟩ 8 6 = none := by decide +kernel

theorem test_extraction :
    extractSample ⟨16, 4, 16, false⟩ [0xE0018001, 0xE0018001] 0 = -8191 ∧
    extractSample ⟨16, 4, 16, false⟩ [0xE0018001, 0xE0018001] 1 = -32767 ∧
    extractSample ⟨24, 4, 32, true⟩ [0x100, 0x201, 0x402, 0x803] 3 = 8 ∧ extractLow [0x100, 0x201, 0x402, 0x803] 3 = 3 := by decide

theorem test_stereo_frames :
    stereoFrame ⟨16, 8, 16, true⟩ (fun n => [0x00010002, 0x00040008].getD n 0) 1 = (4, 8) ∧
    stereoFrame ⟨24, 4, 32, true⟩ (fun n => [0x100, 0x201, 0x402, 0x803].getD n 0) 1 = (0x402, 0x803) := by decide

theorem test_geometry :
    geom 8 32 44100 100 = ⟨441, 32, 14112, 4, 176400⟩ ∧ geom 8 32 44199 100 = ⟨441, 32, 14112, 4, 176796⟩ := by decide

/-! ### Host registers: V-RG-1 to V-RG-8 -/

theorem test_wrCtrl_keeps_seven_bits : (after .rdCtrl (after (.wrCtrl 0xFFFFFFFF) idle)).rdata = 0x7F := by decide

theorem test_wrSrate_reads_back : (after .rdSrate (after (.wrSrate 44100) idle)).rdata = 0xAC44 := by decide

theorem test_wrWfreq_reads_back : (after .rdWfreq (after (.wrWfreq 100) idle)).rdata = 100 := by decide

theorem test_rdCmd_is_zero_in_busy : (after .rdCmd { busy 0 with rdata := 9 }).rdata = 0 := by decide

theorem test_rdStatus : (after .rdStatus { flagged with seq := READY }).rdata = 0xB1E := by decide

/-- FPC 3, BPF 16, BLEN 48, WRATE 6, TMULT 2, ACTL 0x62 (P5). -/
theorem test_reads_of_the_active_registers :
    [Instr.rdFpc, .rdBpf, .rdBlen, .rdWrate, .rdTmult, .rdFidx, .rdActl].map (fun i => (after i (busy 1)).rdata) =
      [3, 16, 48, 6, 2, 1, 0x62] := by decide

theorem test_ignored_writes :
    [Instr.wrFpc 5, .wrBpf 5, .wrBlen 5, .wrWrate 5, .wrTmult 5, .wrFidx 5, .wrActl 5, .wrFbuf 0 5, .wrUnmapped 12 5].map
      (fun i => (after i ready) == ready) = List.replicate 9 true := by decide

theorem test_rdUnmapped_is_zero : (after (.rdUnmapped 12) { idle with rdata := 9 }).rdata = 0 := by decide

theorem test_rdFbuf_in_ready : (after (.rdFbuf 1) ready).rdata = 0x00040008 ∧ (after (.rdFbuf 1) ready).draws = 0 := by decide

/-- Word 4096 lies at the capacity, and reads 0; a word below it that was never written, and any word in BUSY, read a free value. -/
theorem test_rdFbuf_at_the_capacity :
    (after (.rdFbuf 4096) { ready with rdata := 9 }).rdata = 0 ∧ (after (.rdFbuf 0x1FFFFFFF) { ready with rdata := 9 }).rdata = 0 ∧
    (after (.rdFbuf 4095) ready).draws = 1 ∧ (after (.rdFbuf 0) { ready with seq := BUSY }).draws = 1 := by decide

theorem test_wrStatus_clears_by_ones :
    statusWord (after (.wrStatus 4) { idle with cfgerr := true, cmderr := true, ecode := 2 }) = 0x210 ∧
    statusWord (after (.wrStatus 0xFFFFFFFF) { flagged with seq := BUSY }) = 0x001 ∧
    statusWord (after (.wrStatus 3) (busy 0)) = 0x001 := by decide

/-! ### Commands and errors: V-CM-1, V-ER-1, V-ER-2, V-ER-3, V-PK-6 -/

theorem test_cmdNop : after .cmdNop (busy 1) = busy 1 := by decide

theorem test_cmdStart_outside_idle : statusWord (after .cmdStart (busy 0)) = 0x111 ∧ statusWord (after .cmdStart ready) = 0x112 := by
  decide

theorem test_cmdRelease_in_each_state :
    [idle, busy 0, ready].map (fun s => statusWord (after .cmdRelease s)) = [0x210, 0x211, 0x000] := by decide

theorem test_cmdInvalid_in_each_state :
    [idle, busy 0, ready].map (fun s => statusWord (after (.cmdInvalid 3) s)) = [0x310, 0x311, 0x312] := by decide

theorem test_config_check_order :
    [0x3F, 0x13, 0x3C, 0x1D, 0x30, 0x32, 0x10, 0x20, 0x01, 0x02, 0x11, 0x12, 0x00].map
      (fun ctrl => statusWord (after .cmdStart (configured ctrl 0 0))) =
    [0x404, 0x404, 0x504, 0x504, 0x604, 0x604, 0x704, 0x704, 0x704, 0x704, 0x704, 0x704, 0x804] := by decide

theorem test_config_check_of_rates :
    statusWord (after .cmdStart (configured 0 1 2)) = 0x904 ∧
    statusWord (after .cmdStart (configured 0 0x80000000 0x80000000)) = 0xA04 ∧
    (after .cmdStart (configured 0 0x7FFFFFFF 0x7FFFFFFF)).wrate = 0xFFFFFFFE ∧
    (after .cmdStart (configured 8 0x1FFFFFFF 0x1FFFFFFF)).wrate = 0xFFFFFFF8 := by decide

/-- `BUF_BYTES_MAX` of 14112 is just enough, of 14108 it is not (V-ER-3). -/
theorem test_allocation :
    statusWord (after .cmdStart { configured 0x25 44100 100 with capCode := 3527 }) = 0x001 ∧
    statusWord (after .cmdStart { configured 0x25 44100 100 with capCode := 3526 }) = 0xB08 := by decide

theorem test_accepted_start :
    let t := after .cmdStart (configured 0x65 44100 100)
    (t.fpc, t.bpf, t.blen, t.wrate, t.tmult, t.fidx, t.actl, statusWord t) = (441, 32, 14112, 176400, 4, 0, 0x65, 0x001) := by decide

/-! ### The engine and reset: V-EN-1, P6, V-RS-1 -/

theorem test_engFrame_last :
    let t := after .engFrame (busy 2)
    ([8, 9, 10, 11, 7, 12].map t.fbufWord, t.fidx, t.seq) = ([some 1, some 2, some 4, some 8, none, none], 3, READY) := by decide

theorem test_engFrame_first_and_wrapped_triangle :
    (let t := after .engFrame (busy 0)
     ([0, 3, 4].map t.fbufWord, t.fidx, t.seq) = ([some 1, some 8, none], 1, BUSY)) ∧
    (let t := after .engFrame (after .cmdStart (configured 0 5 5))
     ([0, 1].map t.fbufWord, t.seq) = ([some 0x80010000, some 0x80010000], READY)) := by decide +kernel

theorem test_reset_clears :
    let t := after .reset { ready with cfgerr := true, ecode := 4 }
    (statusWord t, t.fpc, t.actl, t.mem, t.capCode) = (0, 0, 0, [], 4095) := by decide

theorem test_reset_memory_is_canonical : State.reset.mem.wf := by decide

/-! ### The step -/

theorem test_step_runs_the_placed_transaction :
    (stepped (idle.withFetchWord 65 (2 ^ 64 + 4 * 2 ^ 32 + 44100))).srate = 44100 ∧
    (stepped (idle.withFetchWord 65 (2 ^ 64 + 4 * 2 ^ 32 + 44100))).pending = [] := by decide

theorem test_step_of_each_agent :
    (stepped { busy 0 with pending := [.engine, .engine] }).fidx = 1 ∧ (stepped (busy 2)).seq = READY ∧ stepped ready = ready ∧
    (stepped { busy 0 with pending := [.reset] }).seq = IDLE := by decide

/-! ### Hypotheses that can be met, in the order of Certificates/Slice0/Obligations.lean -/

theorem test_meets_DecodeOfEncodeIsTheOperation :
    [Instr.cmdInvalid 3, .cmdInvalid 0xFFFFFFFF, .rdUnmapped 12, .wrUnmapped 0x1FFFFFFF 5, .wrFbuf 0x1FFFFFFF 5].map
      (fun i => (WellFormed i, (encode i).isSome)) = List.replicate 5 (true, true) := by decide

theorem test_meets_EncodeOfDecodeIsTheTransaction : decode 0x08000002400000007#65 = .ok (.rdFbuf 9) := by decide

theorem test_meets_OnlyMisalignedTransactionsAreRefused :
    decode 0x00000000300000000#65 = .error .misaligned ∧ (0x00000000300000000#65 : HT).extractLsb' 32 2 ≠ 0#2 ∧
    encode .engFrame = none := by decide

theorem test_meets_ExactlyOneHeaviestRow : (0x10000000C00000001#65 : HT).extractLsb' 32 2 = 0#2 := by decide

/-- The first invalid command code, the first unmapped word and an unaligned address. -/
theorem test_meets_AssemblerLinesDecode :
    2 < (3 : Word).toNat ∧ 12 ≤ (12 : WordIndex).toNat ∧ (0x80000001#32).extractLsb' 0 2 ≠ 0#2 := by decide

theorem test_meets_StepRunsTheDecodedOperation :
    ({ idle with pending := [.access 4 0x10000000C00000001#65] } : State).pending = .access 4 0x10000000C00000001#65 :: [] ∧
    decode 0x10000000C00000001#65 = .ok .cmdStart ∧ decodeTableWord 65 0x10000000C00000001 = some .cmdStart := by decide

theorem test_meets_StepOfTheOtherAgents :
    ({ idle with pending := [.engine] } : State).pending = .engine :: [] ∧
    ({ idle with pending := [.reset] } : State).pending = .reset :: [] ∧
    ((busy 0).pending = [] ∧ (busy 0).seq = BUSY) ∧ idle.pending = [] ∧ idle.seq ≠ BUSY := by decide

theorem test_meets_MisalignedTransactionIsRefused :
    let s : State := { idle with pending := [.access 4 0x00000000300000000#65] }
    s.pending = .access 4 0x00000000300000000#65 :: [] ∧ (0x00000000300000000#65 : HT).extractLsb' 32 2 ≠ 0#2 := by decide

/-- A half word, aligned and not, and a double word: the misaligned one is refused for its width too (log 9). -/
theorem test_meets_OtherWidthsAreRefused :
    ({ idle with pending := [.access 2 0#65] } : State).pending = .access 2 0#65 :: [] ∧ 2 ≠ 4 ∧
    ({ idle with pending := [.access 8 0#65] } : State).pending = .access 8 0#65 :: [] ∧ 8 ≠ 4 ∧
    ({ idle with pending := [.access 2 0x00000000200000000#65] } : State).pending = .access 2 0x00000000200000000#65 :: [] ∧
    (0x00000000200000000#65 : HT).extractLsb' 32 2 ≠ 0#2 := by decide

theorem test_meets_CapacityAndScheduleAreKept : exec (.wrSrate 8) idle = .next { idle with srate := 8 } := rfl

theorem test_meets_EveryHostOperationCompletes : Instr.cmdStart ≠ .engFrame ∧ Instr.reset ≠ .engFrame := by decide

theorem test_meets_TheResetStateAsTheHostSeesIt : (0 : WordIndex).toNat < State.reset.bufBytesMax / 4 := by
  simp only [State.bufBytesMax]
  change 0 < _
  omega

theorem test_meets_FbufReadReturns :
    ready.bufBytesMax / 4 ≤ (4096 : WordIndex).toNat ∧ (4095 : WordIndex).toNat < (busy 0).bufBytesMax / 4 ∧ (busy 0).seq = BUSY ∧
    ready.seq ≠ BUSY ∧ ready.fbufWord 4095 = none ∧ ready.fbufWord 1 = some 0x00040008 ∧ ready.fbufWord 2 = none := by decide

theorem test_meets_ReadsChangeNothingOfTheBlock : isRead (.rdFbuf 0) = true ∧ isRead .rdActl = true := by decide

theorem test_meets_UnmappedAddressesReadZeroAndIgnoreWrites : 12 ≤ (12 : WordIndex).toNat ∧ 12 ≤ (0x1FFFFFFF : WordIndex).toNat := by
  decide

/-- One state for each error of START, at the boundary values of V-PK-6 where there is one. -/
theorem test_meets_RejectedStartReportsTheFirstError_fields :
    ready.seq ≠ IDLE ∧ bdepField 0x3F = 3 ∧ (bdepField 0x3C ≠ 3 ∧ chcntField 0x3C = 3) ∧
    (bdepField 0x32 ≠ 3 ∧ chcntField 0x32 ≠ 3 ∧ chwField 0x32 = 3) ∧ decodeCfg 0x01 = some ⟨24, 4, 16, false⟩ ∧ idle.seq = IDLE := by
  decide

theorem test_meets_RejectedStartReportsTheFirstError_rates :
    decodeCfg 0x00 = some ⟨16, 4, 16, false⟩ ∧ decodeCfg 0x26 = some ⟨32, 8, 32, false⟩ ∧
    (configured 0 7 0).wfreq = 0 ∧ ((configured 0 1 2).srate.toNat < (configured 0 1 2).wfreq.toNat) ∧
    2 ^ 32 ≤ (configured 0 0x80000000 0x80000000).srate.toNat * (4 / 2) ∧
    (configured 0x26 0x20000000 1).srate.toNat * (8 / 2) < 2 ^ 32 ∧
    (configured 0x26 0x20000000 1).bufBytesMax < 0x20000000 / 1 * (8 * 32 / 8) := by decide

theorem test_meets_AcceptedStartBeginsTheCycle :
    let s := { configured 0x25 44100 100 with capCode := 3527 }
    s.seq = IDLE ∧ decodeCfg s.ctrl = some ⟨24, 8, 32, false⟩ ∧ s.wfreq ≠ 0 ∧ s.wfreq.toNat ≤ s.srate.toNat ∧
      s.srate.toNat * (8 / 2) < 2 ^ 32 ∧ s.srate.toNat / s.wfreq.toNat * (8 * 32 / 8) = s.bufBytesMax := by decide

theorem test_meets_ReleaseEndsTheHandOff : ready.seq = READY ∧ idle.seq ≠ READY := by decide

theorem test_meets_StatusWriteClearsSelectedFlags :
    (0x1C#32).getLsbD 2 = true ∧ (0x1C#32).getLsbD 3 = true ∧ (0x1C#32).getLsbD 4 = true ∧ (0x3#32).getLsbD 2 = false ∧
    (0x3#32).getLsbD 3 = false ∧ (0x3#32).getLsbD 4 = false ∧ flagged.cmderr = true := by decide

theorem test_meets_FlagsChangeOnlyByErrorsAndClears :
    (idle.cfgerr = false ∧ (after .cmdStart idle).cfgerr = true) ∧
    (idle.cmderr = false ∧ (after .cmdRelease idle).cmderr = true) ∧
    (idle.allocerr = false ∧ (after .cmdStart { configured 0x25 44100 100 with capCode := 0 }).allocerr = true) ∧
    (flagged.cfgerr = true ∧ (after (.wrStatus 4) flagged).cfgerr = false) ∧
    (flagged.allocerr = true ∧ (after (.wrStatus 8) flagged).allocerr = false) ∧
    (flagged.cmderr = true ∧ (after .reset flagged).cmderr = false) := by decide

theorem test_meets_SequencerTransitions :
    exec .cmdRelease ready = .next (after .cmdRelease ready) ∧ exec .engFrame (busy 2) = .next (after .engFrame (busy 2)) := ⟨rfl, rfl⟩

theorem test_meets_ActiveRegistersChangeOnlyByStart :
    exec .cmdStart (configured 0 5 5) = .next (after .cmdStart (configured 0 5 5)) ∧ (after .cmdStart (configured 0 5 5)).fpc = 1 :=
  ⟨rfl, by decide⟩

/-- An engine step, an accepted START, a reset, and, for the last clause, an engine move in READY and a rejected START. -/
theorem test_meets_FrameIndexChanges :
    (exec .engFrame (busy 1) = .next (after .engFrame (busy 1)) ∧ (busy 1).seq = BUSY) ∧
    (exec .cmdStart { configured 0 5 5 with fidx := 7 } = .next (after .cmdStart { configured 0 5 5 with fidx := 7 }) ∧
      (after .cmdStart { configured 0 5 5 with fidx := 7 }).seq = BUSY) ∧
    exec .reset ready = .next (after .reset ready) ∧ (exec .engFrame ready = .next ready ∧ ready.seq ≠ BUSY) ∧
    (exec .cmdStart (busy 1) = .next (after .cmdStart (busy 1)) ∧ (busy 1).seq ≠ IDLE) :=
  ⟨⟨rfl, rfl⟩, ⟨rfl, by decide⟩, rfl, ⟨rfl, by decide⟩, rfl, by decide⟩

theorem test_meets_ConfigurationChangesOnlyByItsWrites : exec (.wrCtrl 0x25) idle = .next { idle with ctrl := 0x25 } := rfl

theorem test_meets_OnlyTheEngineWritesFbuf :
    exec .cmdNop ready = .next ready ∧ Instr.cmdNop ≠ .engFrame ∧ Instr.cmdNop ≠ .reset := ⟨rfl, by decide, by decide⟩

theorem test_meets_SynthesizerContract :
    (⟨16, 4, 16, false⟩ : Cfg).diag = false ∧ (⟨16, 4, 16, true⟩ : Cfg).diag = true := by decide

/-- Both signs of the accumulator: frame 4 and frame 0 of V-SY-1. -/
theorem test_meets_TriangleIsTheTruncatedAccumulator :
    (0 : ℚ) ≤ -(2 ^ (16 - 1) - 1) + ((List.range (4 + 1)).map fun k => if up 8 k then (2 ^ 16 / (8 : ℕ) : ℚ) else -(2 ^ 16 / (8 : ℕ))).sum ∧
    -(2 ^ (16 - 1) - 1) + ((List.range (0 + 1)).map fun k => if up 8 k then (2 ^ 16 / (8 : ℕ) : ℚ) else -(2 ^ 16 / (8 : ℕ))).sum ≤ (0 : ℚ) ∧
    16 ∈ [16, 24, 32] ∧ 4 < 8 := by
  norm_num [up, List.range_succ]

theorem test_meets_TriangleDirectionIsTheSineSign : 0 < 1 ∧ 7 < 8 := by decide

/-- Both signs of the sine: a quarter and three quarters of a turn. -/
theorem test_meets_SineIsTheTruncatedRealSine :
    0 ≤ (2 ^ (16 - 1) - 1 : ℝ) * Real.sin (2 * Real.pi * (1 : ℕ) / (4 : ℕ)) ∧
    (2 ^ (16 - 1) - 1 : ℝ) * Real.sin (2 * Real.pi * (3 : ℕ) / (4 : ℕ)) ≤ 0 ∧ 16 ∈ [16, 24, 32] ∧ 3 < 4 := by
  have h1 : Real.sin (2 * Real.pi * (1 : ℕ) / (4 : ℕ)) = 1 := by
    rw [← Real.sin_pi_div_two]
    congr 1
    push_cast
    ring
  have h3 : Real.sin (2 * Real.pi * (3 : ℕ) / (4 : ℕ)) = -1 := by
    rw [show 2 * Real.pi * (3 : ℕ) / (4 : ℕ) = Real.pi / 2 + Real.pi by push_cast; ring, Real.sin_add_pi, Real.sin_pi_div_two]
  rw [h1, h3]
  norm_num

theorem test_meets_SineSymmetryAndRange :
    (16 ∈ [16, 24, 32] ∧ 4 < 8 ∧ 8 = 2 * 4) ∧ (2 < 8 ∧ 8 = 4 * 2) ∧ (6 < 8 ∧ 3 * 8 = 4 * 6) ∧ (0 < 7 ∧ 7 < 8) := by decide

theorem test_meets_TriangleFitsFromThreeFramesOn : 32 ∈ [16, 24, 32] ∧ 3 ≤ 3 ∧ 2 < 3 := by decide

theorem test_meets_TriangleWrapsForOneAndTwoFrames : 24 ∈ [16, 24, 32] := by decide

/-- Both directions, at the largest number of frames. -/
theorem test_meets_TriangleMovesStrictlyWithTheSineSign :
    16 ∈ [16, 24, 32] ∧ 3 ≤ 32768 ∧ 32768 ≤ 2 ^ (16 - 1) ∧ 1 ≤ 1 ∧ 32767 < 32768 ∧ up 32768 1 = true ∧ up 32768 32767 = false := by
  decide

theorem test_meets_DiagnosticFramesAreConstantAndDisjoint :
    legalCfg 0x40 = some ⟨16, 4, 16, true⟩ ∧ (⟨16, 4, 16, true⟩ : Cfg).diag = true ∧
    pack ⟨16, 4, 16, true⟩ 1 0 = some [0x00010002, 0x00040008] ∧ 3 < 4 ∧ 0 ≠ 3 := by decide

theorem test_meets_PackedLengthIsTheBufferLength :
    legalCfg 0x00 = some ⟨16, 4, 16, false⟩ ∧ legalCfg 0x6A = some ⟨32, 16, 32, true⟩ := by decide

/-- A sample that fits, at the bottom of the range, and a low part: channel 15 of a 16-bit and of a 24-bit diagnostic frame. -/
theorem test_meets_ExtractionInvertsPacking :
    legalCfg 0x69 = some ⟨24, 16, 32, true⟩ ∧ (pack ⟨24, 16, 32, true⟩ 1 0).isSome = true ∧ 15 < 16 ∧
    -(2 ^ (24 - 1)) ≤ (synth ⟨24, 16, 32, true⟩ 1 0 15).1 ∧ (synth ⟨24, 16, 32, true⟩ 1 0 15).1 < 2 ^ (24 - 1) := by decide

theorem test_meets_StereoFramesAreTheBufferInOrder :
    legalCfg 0x44 = some ⟨16, 8, 16, true⟩ ∧ 0 < 1 ∧ 3 < (⟨16, 8, 16, true⟩ : Cfg).C / 2 := by decide

theorem test_meets_ByteViewIsLittleEndian :
    ready.fbufWord 1 = some 0x00040008 ∧ [4, 5, 6, 7].map ready.fbufByte = [some 0x08, some 0x00, some 0x04, some 0x00] ∧ 3 < 4 := by
  decide

theorem test_meets_EngineStepPacksOneFrame :
    (busy 2).seq = BUSY ∧ (busy 2).fidx.toNat < (busy 2).fpc.toNat ∧ legalCfg (busy 2).actl = some ⟨32, 4, 32, true⟩ ∧
    pack ⟨32, 4, 32, true⟩ (busy 2).fpc.toNat (busy 2).fidx.toNat = some [1, 2, 4, 8] ∧
    4 * (((busy 2).fidx.toNat + 1) * wordsPerFrame 4 32) = 48 ∧ 48 ≤ (busy 2).bufBytesMax := by decide

theorem test_meets_EngineTakesNoStepOutsideBusy : ready.seq ≠ BUSY := by decide

theorem test_meets_EngineReadsNoHostConfiguration : exec .engFrame (busy 1) = .next (after .engFrame (busy 1)) := rfl

/-- `ready` meets the invariant: its one frame is what the packer gives. -/
theorem test_ready_meets_the_invariant : ready.Inv where
  seq_legal := by decide
  busy := by decide
  ready := by decide
  idle := by decide
  unstarted := by decide
  started := fun _ => ⟨⟨16, 4, 16, true⟩, by decide, by decide, by decide, by decide, by decide, 5, 5, by decide, by decide, by decide⟩
  errors := by decide
  codes := by decide
  mem_wf := by decide
  mem_inside := by decide
  frames := by
    intro _ c hc i hi words hw w hwl
    have h : legalCfg ready.actl = some ⟨16, 4, 16, true⟩ := by decide
    cases hc.symm.trans h
    have hi0 : i = 0 := Nat.lt_one_iff.mp hi
    subst hi0
    have hp : pack ⟨16, 4, 16, true⟩ ready.fpc.toNat 0 = some [0x00010002, 0x00040008] := by decide
    cases hw.symm.trans hp
    have hl : w = 0 ∨ w = 1 := by
      simp only [List.length_cons, List.length_nil] at hwl
      omega
    rcases hl with rfl | rfl <;> decide

/-- A cycle just begun meets the invariant. -/
theorem test_busy_meets_the_invariant : (busy 0).Inv where
  seq_legal := by decide
  busy := by decide
  ready := by decide
  idle := by decide
  unstarted := by decide
  started := fun _ => ⟨⟨32, 4, 32, true⟩, by decide, by decide, by decide, by decide, by decide, 3, 1, by decide, by decide, by decide⟩
  errors := by decide
  codes := by decide
  mem_wf := by decide
  mem_inside := by decide
  frames := fun _ _ _ i hi => absurd hi (Nat.not_lt_zero i)

theorem test_meets_NoStepFaultsUnderTheInvariant : (busy 0).Inv := test_busy_meets_the_invariant

theorem test_meets_ReadyBufferIsStable :
    ready.seq = READY ∧ (∀ rest, ready.pending ≠ .reset :: rest) ∧ step ready = .next ready :=
  ⟨rfl, fun _ => List.cons_ne_nil _ _ ∘ Eq.symm, rfl⟩

theorem test_meets_TransportReadsTheCycle :
    ready.Inv ∧ ready.seq = READY ∧ legalCfg ready.actl = some ⟨16, 4, 16, true⟩ ∧ (1 : WordIndex).toNat < ready.blen.toNat / 4 ∧
      (cycleWords ⟨16, 4, 16, true⟩ ready.fpc.toNat)[(1 : WordIndex).toNat]? = some 0x00040008 :=
  ⟨test_ready_meets_the_invariant, by decide⟩

theorem test_meets_AcceptedStartCompletesInFpcSteps :
    startCheck (configured 0x65 44100 100) = .ok ⟨441, 32, 14112, 4, 176400⟩ ∧
    legalCfg (configured 0x65 44100 100).ctrl = some ⟨24, 8, 32, true⟩ := by decide

theorem test_meets_EveryStepKeepsTheInvariant : (busy 0).Inv ∧ step (busy 0) = .next (after .engFrame (busy 0)) :=
  ⟨test_busy_meets_the_invariant, rfl⟩

end Sys2Proof.Tests
end

section
/-! The frame of the model's own parameters: the capacity (log 4) and the schedule (log 1) under each effect an operation can have. -/

namespace Sys2Proof.Machine

@[simp] theorem State.afterFrame_capCode (s : State) (c : Cfg) (words : List Word) : (s.afterFrame c words).capCode = s.capCode := rfl

@[simp] theorem State.afterFrame_pending (s : State) (c : Cfg) (words : List Word) : (s.afterFrame c words).pending = s.pending := rfl

/-- No operation writes the parameter `BUF_BYTES_MAX` (00_scope R7, log 4); RESET copies it (log 15). -/
theorem Effect.capCode_eq {s t : State} {i : Instr} (h : Effect s i t) : t.capCode = s.capCode := by
  cases h with
  | answer | ctrl | srate | wfreq | release | reset => rfl
  | clear data => exact clearFlags_capCode data s
  | error _ e => exact s.raise_capCode e
  | start g => exact s.beginCycle_capCode g
  | frame c words => exact s.afterFrame_capCode c words

/-- The schedule is the environment's: only `step` takes events from it, no operation does (log 1); RESET copies it (log 15). -/
theorem Effect.pending_eq {s t : State} {i : Instr} (h : Effect s i t) : t.pending = s.pending := by
  cases h with
  | answer | ctrl | srate | wfreq | release | reset => rfl
  | clear data => exact clearFlags_pending data s
  | error _ e => exact s.raise_pending e
  | start g => exact s.beginCycle_pending g
  | frame c words => exact s.afterFrame_pending c words

/-- Settles O12: neither field is changed by any effect that an operation can have. -/
theorem capacityAndScheduleAreKept : Obligations.CapacityAndScheduleAreKept :=
  fun _ _ _ h => ⟨(exec_next h).capCode_eq, (exec_next h).pending_eq⟩

end Sys2Proof.Machine
end

section
/-! The step of the machine: which operation each kind of event stands for, and what a step that completes has done (10_state R20,
logs 1 to 3). -/

namespace Sys2Proof.Machine

/-- Taking the first event off the schedule leaves the rest of it. -/
theorem State.advance_of_pending {s : State} {e : Event} {rest : List Event} (h : s.pending = e :: rest) :
    s.advance = { s with pending := rest } := by
  simp [State.advance, h]

/-- An empty schedule stays as it is. -/
theorem State.advance_of_idle_schedule {s : State} (h : s.pending = []) : s.advance = s := by
  cases s
  cases h
  rfl

theorem step_of_nextOperation {s : State} {i : Instr} (h : nextOperation s = .ok (some i)) : step s = exec i s.advance := by
  simp [step, h]

theorem step_of_no_operation {s : State} (h : nextOperation s = .ok none) : step s = .next s := by
  simp [step, h]

/-- A scheduled transaction of 4 bytes stands for what it decodes to. -/
theorem nextOperation_of_access {s : State} {ht : HT} {rest : List Event} {i : Instr} (hp : s.pending = .access 4 ht :: rest)
    (hd : decode ht = .ok i) : nextOperation s = .ok (some i) := by
  simp [nextOperation, hp, decodeAccess, hd]

theorem nextOperation_of_engine {s : State} {rest : List Event} (hp : s.pending = .engine :: rest) :
    nextOperation s = .ok (some .engFrame) := by
  simp [nextOperation, hp]

theorem nextOperation_of_reset {s : State} {rest : List Event} (hp : s.pending = .reset :: rest) :
    nextOperation s = .ok (some .reset) := by
  simp [nextOperation, hp]

/-- With nothing scheduled the engine moves, where it is enabled (log 2). -/
theorem nextOperation_of_empty {s : State} (hp : s.pending = []) :
    nextOperation s = .ok (if s.seq = BUSY then some .engFrame else none) := by
  simp [nextOperation, hp]

/-- A step that completes found nothing to do, or ran one operation on the state with its event taken off the schedule. -/
theorem step_next {s t : State} (h : step s = .next t) : t = s ∨ ∃ i, exec i s.advance = .next t := by
  unfold step at h
  split at h
  · cases h
  · cases h
    exact .inl rfl
  · exact .inr ⟨_, h⟩

/-- A word that decodes is a transaction of the block that decodes. -/
theorem decode_of_decodeTableWord {nbits w : Nat} {i : Instr} (h : decodeTableWord nbits w = some i) :
    decode (BitVec.ofNat 65 w) = .ok i := by
  unfold decodeTableWord at h
  split at h
  · cases hd : decode (BitVec.ofNat 65 w) with
    | error r => simp [hd, Except.toOption] at h
    | ok j => simpa [hd, Except.toOption] using h
  · cases h

/-- Settles O8: the event stands for the operation that its transaction decodes to. -/
theorem stepRunsTheDecodedOperation : Obligations.StepRunsTheDecodedOperation := by
  refine ⟨fun s ht rest i hp hd => ?_, fun s nbits w i hw => ?_⟩
  · rw [step_of_nextOperation (nextOperation_of_access hp hd), State.advance_of_pending hp]
  · have hp : (s.withFetchWord nbits w).pending = .access 4 (BitVec.ofNat 65 w) :: s.pending := rfl
    rw [step_of_nextOperation (nextOperation_of_access hp (decode_of_decodeTableWord hw)), State.advance_of_pending hp]
    rfl

/-- Settles O9: an event of the engine or of the environment stands for its operation, and an empty schedule for the engine's in BUSY. -/
theorem stepOfTheOtherAgents : Obligations.StepOfTheOtherAgents := by
  refine ⟨fun s rest hp => ?_, fun s rest hp => ?_, fun s hp hb => ?_, fun s hp hb => ?_⟩
  · rw [step_of_nextOperation (nextOperation_of_engine hp), State.advance_of_pending hp]
  · rw [step_of_nextOperation (nextOperation_of_reset hp), State.advance_of_pending hp]
  · have hop : nextOperation s = .ok (some .engFrame) := (nextOperation_of_empty hp).trans (by rw [if_pos hb])
    rw [step_of_nextOperation hop, State.advance_of_idle_schedule hp]
  · exact step_of_no_operation ((nextOperation_of_empty hp).trans (by rw [if_neg hb]))

end Sys2Proof.Machine
end

section
/-! The invariant of 10_state R41 under each effect an operation can have. -/

namespace Sys2Proof.Machine

section afterFrame

variable (s : State) (c : Cfg) (words : List Word)

@[simp] theorem State.afterFrame_ctrl : (s.afterFrame c words).ctrl = s.ctrl := rfl
@[simp] theorem State.afterFrame_srate : (s.afterFrame c words).srate = s.srate := rfl
@[simp] theorem State.afterFrame_wfreq : (s.afterFrame c words).wfreq = s.wfreq := rfl
@[simp] theorem State.afterFrame_seq : (s.afterFrame c words).seq = if s.fidx + 1 = s.fpc then READY else s.seq := rfl
@[simp] theorem State.afterFrame_cfgerr : (s.afterFrame c words).cfgerr = s.cfgerr := rfl
@[simp] theorem State.afterFrame_allocerr : (s.afterFrame c words).allocerr = s.allocerr := rfl
@[simp] theorem State.afterFrame_cmderr : (s.afterFrame c words).cmderr = s.cmderr := rfl
@[simp] theorem State.afterFrame_ecode : (s.afterFrame c words).ecode = s.ecode := rfl
@[simp] theorem State.afterFrame_fpc : (s.afterFrame c words).fpc = s.fpc := rfl
@[simp] theorem State.afterFrame_bpf : (s.afterFrame c words).bpf = s.bpf := rfl
@[simp] theorem State.afterFrame_blen : (s.afterFrame c words).blen = s.blen := rfl
@[simp] theorem State.afterFrame_wrate : (s.afterFrame c words).wrate = s.wrate := rfl
@[simp] theorem State.afterFrame_tmult : (s.afterFrame c words).tmult = s.tmult := rfl
@[simp] theorem State.afterFrame_fidx : (s.afterFrame c words).fidx = s.fidx + 1 := rfl
@[simp] theorem State.afterFrame_actl : (s.afterFrame c words).actl = s.actl := rfl
@[simp] theorem State.afterFrame_mem : (s.afterFrame c words).mem =
    s.mem.writeWords (fbufAddr (s.fidx.toNat * wordsPerFrame c.C c.W)) words := rfl
@[simp] theorem State.afterFrame_rdata : (s.afterFrame c words).rdata = s.rdata := rfl
@[simp] theorem State.afterFrame_draws : (s.afterFrame c words).draws = s.draws := rfl
@[simp] theorem State.afterFrame_bufBytesMax : (s.afterFrame c words).bufBytesMax = s.bufBytesMax := rfl
@[simp] theorem State.afterFrame_fbufWord (k : Nat) : (s.afterFrame c words).fbufWord k =
    (s.writeFbuf (s.fidx.toNat * wordsPerFrame c.C c.W) words).fbufWord k := rfl

end afterFrame

/-- The engine step enters READY with the last frame and stays in BUSY before it (41_packer R130). -/
theorem State.afterFrame_seq_cases {s : State} (c : Cfg) (words : List Word) (hb : s.seq = BUSY) :
    (s.fidx + 1 = s.fpc ∧ (s.afterFrame c words).seq = READY) ∨ (s.fidx + 1 ≠ s.fpc ∧ (s.afterFrame c words).seq = BUSY) := by
  rw [State.afterFrame_seq]
  split
  case isTrue hlast => exact .inl ⟨hlast, rfl⟩
  case isFalse hmore => exact .inr ⟨hmore, hb⟩

/-- FIDX below FPC counts up without wrapping. -/
theorem State.fidx_succ_toNat {s : State} (h : s.fidx.toNat < s.fpc.toNat) : (s.fidx + 1).toNat = s.fidx.toNat + 1 := by
  have := s.fpc.isLt
  simp [BitVec.toNat_add]
  omega

/-- The engine step adds the frame FIDX to those that lie in FBUF: its words are written behind theirs (41_packer R121, R130). -/
theorem State.holdsFrames_afterFrame {s : State} {c : Cfg} {words : List Word} (hc : legalCfg s.actl = some c)
    (hw : pack c s.fpc.toNat s.fidx.toNat = some words) (h : s.holdsFrames s.fidx.toNat) :
    (s.afterFrame c words).holdsFrames (s.fidx.toNat + 1) := by
  intro c' hc' i hi words' hw' w hwl
  cases hc'.symm.trans hc
  obtain ⟨_, hp, hlen⟩ := pack_legal hc s.fpc.toNat i
  cases hw'.symm.trans hp
  rw [State.afterFrame_fbufWord]
  rcases Nat.lt_succ_iff_lt_or_eq.mp hi with hlt | rfl
  · have hbelow : (i + 1) * wordsPerFrame c.C c.W ≤ s.fidx.toNat * wordsPerFrame c.C c.W := Nat.mul_le_mul_right _ hlt
    rw [Nat.succ_mul] at hbelow
    rw [State.fbufWord_writeFbuf_outside _ _ _ _ (.inl (by omega))]
    exact h c hc i hlt words' hw' w hwl
  · cases hw'.symm.trans hw
    exact s.fbufWord_writeFbuf_inside _ w words hwl

/-- The words that the engine step writes lie inside FBUF (20_memory R52). -/
theorem State.afterFrame_mem_inside {s : State} {c : Cfg} {words : List Word} (hl : words.length = wordsPerFrame c.C c.W)
    (hf : 4 * ((s.fidx.toNat + 1) * wordsPerFrame c.C c.W) ≤ s.bufBytesMax)
    (h : ∀ cell, cell ∈ s.mem → fbufBase ≤ cell.1 ∧ cell.1 < fbufBase + s.bufBytesMax) :
    ∀ cell, cell ∈ (s.afterFrame c words).mem → fbufBase ≤ cell.1 ∧ cell.1 < fbufBase + s.bufBytesMax := by
  intro cell hcell
  rcases Memory.mem_writeWords hcell with hin | hold
  · rw [Nat.add_mul, Nat.one_mul] at hf
    simp only [fbufAddr, hl] at hin
    omega
  · exact h cell hold

/-- The invariant speaks of neither the host's configuration nor the model's own schedule, free values and last answer. -/
theorem State.Inv.of_host_side {s : State} (h : s.Inv) (ctrl : BitVec 7) (srate wfreq rdata : Word) (draws : Nat)
    (pending : List Event) :
    State.Inv { s with ctrl := ctrl, srate := srate, wfreq := wfreq, rdata := rdata, draws := draws, pending := pending } where
  seq_legal := h.seq_legal
  busy := h.busy
  ready := h.ready
  frames := h.frames
  idle := h.idle
  unstarted := h.unstarted
  started := h.started
  errors := h.errors
  codes := h.codes
  mem_wf := h.mem_wf
  mem_inside := h.mem_inside

/-- Other flags and another ECODE keep the invariant where they agree with each other (10_state R41 item 6). -/
theorem State.Inv.of_flags {s : State} (h : s.Inv) {cfgerr allocerr cmderr : Bool} {ecode : BitVec 4}
    (herrors : ecode = 0 ↔ cfgerr = false ∧ allocerr = false ∧ cmderr = false) (hcodes : ecode.toNat ≤ 0xB) :
    State.Inv { s with cfgerr := cfgerr, allocerr := allocerr, cmderr := cmderr, ecode := ecode } where
  seq_legal := h.seq_legal
  busy := h.busy
  ready := h.ready
  frames := h.frames
  idle := h.idle
  unstarted := h.unstarted
  started := h.started
  errors := herrors
  codes := hcodes
  mem_wf := h.mem_wf
  mem_inside := h.mem_inside

theorem State.Inv.advance {s : State} (h : s.Inv) : s.advance.Inv :=
  h.of_host_side s.ctrl s.srate s.wfreq s.rdata s.draws s.pending.tail

/-- The codes of 60_exceptions R200 run from 0x1 to 0xB. -/
theorem errCodeBits_range (e : ErrCode) : errCodeBits e ≠ 0 ∧ (errCodeBits e).toNat ≤ 0xB := by
  cases e <;> decide

/-- An error leaves its code and its flag. -/
theorem State.Inv.raise {s : State} (h : s.Inv) (e : ErrCode) : (s.raise e).Inv := by
  rw [State.raise_eq]
  obtain ⟨hne, hle⟩ := errCodeBits_range e
  refine h.of_flags ⟨fun h0 => absurd h0 hne, fun hnone => ?_⟩ hle
  cases hf : errFlagOf e <;> simp [hf] at hnone

/-- A write to STATUS clears ECODE exactly where it leaves no flag (43_cycle_control R174). -/
theorem clearFlags_ecode_eq_zero_iff {s : State} (h : s.ecode = 0 ↔ s.cfgerr = false ∧ s.allocerr = false ∧ s.cmderr = false)
    (data : Word) : (clearFlags data s).ecode = 0 ↔
      (clearFlags data s).cfgerr = false ∧ (clearFlags data s).allocerr = false ∧ (clearFlags data s).cmderr = false := by
  rw [clearFlags_ecode]
  split
  case isTrue hleft =>
    have hne : s.ecode ≠ 0 := fun h0 => by
      obtain ⟨hcfg, halloc, hcmd⟩ := h.mp h0
      simp [hcfg, halloc, hcmd] at hleft
    refine ⟨fun h0 => absurd h0 hne, fun ⟨hcfg, halloc, hcmd⟩ => ?_⟩
    rw [hcfg, halloc, hcmd] at hleft
    cases hleft
  case isFalse hleft =>
    exact ⟨fun _ => by simpa [and_assoc] using hleft, fun _ => rfl⟩

theorem clearFlags_ecode_le (data : Word) (s : State) : (clearFlags data s).ecode.toNat ≤ s.ecode.toNat := by
  rw [clearFlags_ecode]
  split
  · exact le_rfl
  · exact Nat.zero_le _

theorem State.Inv.clearFlags {s : State} (h : s.Inv) (data : Word) : (clearFlags data s).Inv :=
  h.of_flags (clearFlags_ecode_eq_zero_iff h.errors data) ((clearFlags_ecode_le data s).trans h.codes)

/-- The geometry of an accepted START fits the 32-bit active registers (41_packer R120). -/
theorem startCheck_ok_fits {s : State} {g : Geom} (h : startCheck s = .ok g) :
    g.N < 2 ^ 32 ∧ g.bpf < 2 ^ 32 ∧ g.blen < 2 ^ 32 ∧ g.tmult < 2 ^ 32 ∧ g.wrate < 2 ^ 32 := by
  obtain ⟨-, c, hc, rfl, -, hN, hwrate, hcap⟩ := startCheck_ok h
  obtain ⟨hC, -⟩ := legalCfg_cases hc
  have hmax := s.bufBytesMax_bounds.2
  have hbpf : c.C * c.W / 8 ≤ s.bufBytesMax := (Nat.le_mul_of_pos_left _ (Nat.pos_of_ne_zero hN)).trans hcap
  refine ⟨lt_of_le_of_lt (Nat.div_le_self _ _) s.srate.isLt, ?_, by omega, ?_, hwrate⟩ <;> simp only [geom] <;> omega

/-- The active registers hold the geometry of an accepted START (43_cycle_control R171). -/
theorem State.beginCycle_toNat {s : State} {g : Geom} (h : startCheck s = .ok g) :
    (s.beginCycle g).fpc.toNat = g.N ∧ (s.beginCycle g).bpf.toNat = g.bpf ∧ (s.beginCycle g).blen.toNat = g.blen ∧
      (s.beginCycle g).tmult.toNat = g.tmult ∧ (s.beginCycle g).wrate.toNat = g.wrate := by
  obtain ⟨hN, hbpf, hblen, htmult, hwrate⟩ := startCheck_ok_fits h
  exact ⟨Nat.mod_eq_of_lt hN, Nat.mod_eq_of_lt hbpf, Nat.mod_eq_of_lt hblen, Nat.mod_eq_of_lt htmult, Nat.mod_eq_of_lt hwrate⟩

/-- The active registers of an accepted START fit together, and there is a frame to pack (10_state R41 items 4 and 5). -/
theorem State.activeOk_beginCycle {s : State} {g : Geom} (h : startCheck s = .ok g) :
    (s.beginCycle g).activeOk ∧ (s.beginCycle g).fpc ≠ 0 := by
  obtain ⟨hfpc, hbpf, hblen, htmult, hwrate⟩ := State.beginCycle_toNat h
  obtain ⟨-, c, hc, rfl, hwfreq, hN, -, hcap⟩ := startCheck_ok h
  refine ⟨⟨c, hc, hbpf, by rw [hblen, hfpc]; rfl, by rw [hblen]; exact hcap, htmult, s.srate, s.wfreq, ?_, hfpc, hwrate⟩, ?_⟩
  · exact fun h0 => hwfreq (by rw [h0]; rfl)
  · exact fun h0 => hN (hfpc.symm.trans (by rw [h0]; rfl))

/-- An accepted START begins a BUSY cycle with no frame packed. -/
theorem State.Inv.beginCycle {s : State} (h : s.Inv) {g : Geom} (hg : startCheck s = .ok g) : (s.beginCycle g).Inv := by
  obtain ⟨hact, hne⟩ := State.activeOk_beginCycle hg
  have hpos : 0 < (s.beginCycle g).fpc.toNat := Nat.pos_of_ne_zero fun h0 => hne (BitVec.eq_of_toNat_eq h0)
  exact {
    seq_legal := .inr (.inl rfl)
    busy := fun _ => ⟨hpos, hpos⟩
    ready := fun hseq => absurd hseq BUSY_ne_READY
    frames := fun _ _ _ i hi => absurd hi (Nat.not_lt_zero i)
    idle := fun hseq => absurd hseq BUSY_ne_IDLE
    unstarted := fun h0 => absurd h0 hne
    started := fun _ => hact
    errors := h.errors
    codes := h.codes
    mem_wf := h.mem_wf
    mem_inside := h.mem_inside }

/-- RELEASE leaves FIDX at FPC (10_state R39). -/
theorem State.Inv.release {s : State} (h : s.Inv) (hr : s.seq = READY) : State.Inv { s with seq := IDLE } where
  seq_legal := .inl rfl
  busy := fun hseq => absurd hseq IDLE_ne_BUSY
  ready := fun hseq => absurd hseq IDLE_ne_READY
  frames := fun hseq => absurd rfl hseq
  idle := fun _ => (h.ready hr).1
  unstarted := fun h0 => by
    obtain ⟨hbpf, hblen, hwrate, htmult, hfidx, hactl, -⟩ := h.unstarted h0
    exact ⟨hbpf, hblen, hwrate, htmult, hfidx, hactl, rfl⟩
  started := h.started
  errors := h.errors
  codes := h.codes
  mem_wf := h.mem_wf
  mem_inside := h.mem_inside

/-- The engine step packs one frame more: the cycle stays BUSY with frames left, or is READY with all of them. -/
theorem State.Inv.afterFrame {s : State} (h : s.Inv) {c : Cfg} {words : List Word} (hb : s.seq = BUSY)
    (hi : s.fidx.toNat < s.fpc.toNat) (hc : legalCfg s.actl = some c) (hw : pack c s.fpc.toNat s.fidx.toNat = some words)
    (hf : 4 * ((s.fidx.toNat + 1) * wordsPerFrame c.C c.W) ≤ s.bufBytesMax) : (s.afterFrame c words).Inv := by
  obtain ⟨_, hp, hlen⟩ := pack_legal hc s.fpc.toNat s.fidx.toNat
  cases hw.symm.trans hp
  have hsucc := State.fidx_succ_toNat hi
  have hfpc : s.fpc ≠ 0 := fun h0 => by simp [h0] at hi
  have hseq := State.afterFrame_seq_cases c words hb
  exact {
    seq_legal := hseq.elim (fun hlast => .inr (.inr hlast.2)) (fun hmore => .inr (.inl hmore.2))
    busy := fun hbusy => by
      rcases hseq with ⟨-, hready⟩ | ⟨hmore, -⟩
      · exact absurd (hready.symm.trans hbusy) READY_ne_BUSY
      · have hne : (s.fidx + 1).toNat ≠ s.fpc.toNat := fun he => hmore (BitVec.eq_of_toNat_eq he)
        rw [State.afterFrame_fpc, State.afterFrame_fidx]
        omega
    ready := fun hready => by
      rcases hseq with ⟨hlast, -⟩ | ⟨-, hbusy⟩
      · exact ⟨hlast, Nat.one_le_of_lt hi⟩
      · exact absurd (hbusy.symm.trans hready) BUSY_ne_READY
    frames := fun _ => hsucc ▸ State.holdsFrames_afterFrame hc hw (h.frames (hb ▸ BUSY_ne_IDLE))
    idle := fun hidle => by
      rcases hseq with ⟨-, hready⟩ | ⟨-, hbusy⟩
      · exact absurd (hready.symm.trans hidle) READY_ne_IDLE
      · exact absurd (hbusy.symm.trans hidle) BUSY_ne_IDLE
    unstarted := fun h0 => absurd h0 hfpc
    started := fun _ => h.started hfpc
    errors := h.errors
    codes := h.codes
    mem_wf := Memory.wf_writeWords h.mem_wf _ _
    mem_inside := State.afterFrame_mem_inside hlen hf h.mem_inside }

/-- RESET leaves a block that has the invariant, from any state (70_reset_and_hazards R220). -/
theorem State.inv_of_reset (s : State) :
    State.Inv { State.reset with capCode := s.capCode, rdata := s.rdata, draws := s.draws, pending := s.pending } where
  seq_legal := .inl rfl
  busy := fun hseq => absurd hseq IDLE_ne_BUSY
  ready := fun hseq => absurd hseq IDLE_ne_READY
  frames := fun hseq => absurd rfl hseq
  idle := fun _ => rfl
  unstarted := fun _ => ⟨rfl, rfl, rfl, rfl, rfl, rfl, rfl⟩
  started := fun hne => absurd rfl hne
  errors := iff_of_true rfl ⟨rfl, rfl, rfl⟩
  codes := Nat.zero_le _
  mem_wf := List.Pairwise.nil
  mem_inside := fun _ hcell => absurd hcell List.not_mem_nil

/-- Every effect of an operation keeps the invariant. -/
theorem Effect.keeps_inv {s t : State} {i : Instr} (h : Effect s i t) (hs : s.Inv) : t.Inv := by
  cases h with
  | answer _ v n => exact hs.of_host_side s.ctrl s.srate s.wfreq v n s.pending
  | ctrl data => exact hs.of_host_side (data.extractLsb' 0 7) s.srate s.wfreq s.rdata s.draws s.pending
  | srate data => exact hs.of_host_side s.ctrl data s.wfreq s.rdata s.draws s.pending
  | wfreq data => exact hs.of_host_side s.ctrl s.srate data s.rdata s.draws s.pending
  | clear data => exact hs.clearFlags data
  | error _ e => exact hs.raise e
  | start g hg => exact hs.beginCycle hg
  | release hr => exact hs.release hr
  | frame c words hb hi hc hw hf => exact hs.afterFrame hb hi hc hw hf
  | reset => exact s.inv_of_reset

/-- Settles O58: a reset from any state has the invariant, and this one is the reset of itself. -/
theorem invariantHoldsAtReset : Obligations.InvariantHoldsAtReset := State.inv_of_reset State.reset

/-- Settles O59: taking an event off the schedule and every effect of an operation keep the invariant. -/
theorem everyStepKeepsTheInvariant : Obligations.EveryStepKeepsTheInvariant := by
  intro s t hs hstep
  rcases step_next hstep with rfl | ⟨i, hexec⟩
  · exact hs
  · exact (exec_next hexec).keeps_inv hs.advance

end Sys2Proof.Machine
end

section
/-! Who changes what: the flags, STATE, the active registers, FIDX, the configuration and FBUF under each operation (10_state R25 to
R40), read off the effects that an operation can have. -/

namespace Sys2Proof.Machine

/-- The flag of a class (10_state R32). -/
def State.flag (s : State) : ErrFlag → Bool
  | .cfgerr => s.cfgerr
  | .allocerr => s.allocerr
  | .cmderr => s.cmderr

/-- The bit of STATUS that holds the flag of a class and clears it where 1 is written to it (10_state R30, 43_cycle_control R174). -/
def ErrFlag.statusBit : ErrFlag → Nat
  | .cfgerr => 2
  | .allocerr => 3
  | .cmderr => 4

/-- An error sets the flag of its class and no other. -/
theorem State.flag_raise (s : State) (e : ErrCode) (f : ErrFlag) : (s.raise e).flag f = (s.flag f || errFlagOf e == f) := by
  cases f <;> simp [State.flag]

/-- A write to STATUS keeps each flag whose bit is 0. -/
theorem State.flag_clearFlags (data : Word) (s : State) (f : ErrFlag) :
    (clearFlags data s).flag f = (s.flag f && !data.getLsbD f.statusBit) := by
  cases f <;> rfl

/-- What an operation can do to the flags: leave them, clear them by a write to STATUS, raise an error, or reset. -/
theorem Effect.flag_cases {s t : State} {i : Instr} (h : Effect s i t) :
    (∀ f, t.flag f = s.flag f) ∨ (∃ data, i = .wrStatus data ∧ t = clearFlags data s) ∨ (∃ e, t = s.raise e) ∨
      (i = .reset ∧ ∀ f, t.flag f = false) := by
  cases h with
  | answer | ctrl | srate | wfreq | start | release | frame => exact .inl fun f => by cases f <;> rfl
  | clear data => exact .inr (.inl ⟨data, rfl, rfl⟩)
  | error _ e => exact .inr (.inr (.inl ⟨e, rfl⟩))
  | reset => exact .inr (.inr (.inr ⟨rfl, fun f => by cases f <;> rfl⟩))

/-- A flag that comes up was raised by an error of its class. -/
theorem Effect.flag_set {s t : State} {i : Instr} (h : Effect s i t) (f : ErrFlag) (hs : s.flag f = false) (ht : t.flag f = true) :
    ∃ e, errFlagOf e = f ∧ t = s.raise e := by
  rcases h.flag_cases with hkept | ⟨data, -, rfl⟩ | ⟨e, rfl⟩ | ⟨-, hnone⟩
  · simp [hkept, hs] at ht
  · simp [State.flag_clearFlags, hs] at ht
  · exact ⟨e, by simpa [State.flag_raise, hs] using ht, rfl⟩
  · simp [hnone] at ht

/-- A flag that goes down was cleared by its bit in a write to STATUS, or by reset. -/
theorem Effect.flag_cleared {s t : State} {i : Instr} (h : Effect s i t) (f : ErrFlag) (hs : s.flag f = true) (ht : t.flag f = false) :
    i = .reset ∨ ∃ data, i = .wrStatus data ∧ data.getLsbD f.statusBit = true := by
  rcases h.flag_cases with hkept | ⟨data, hi, rfl⟩ | ⟨e, rfl⟩ | ⟨hi, -⟩
  · simp [hkept, hs] at ht
  · exact .inr ⟨data, hi, by simpa [State.flag_clearFlags, hs] using ht⟩
  · simp [State.flag_raise, hs] at ht
  · exact .inl hi

/-- Settles O31: one argument for the three flags. -/
theorem flagsChangeOnlyByErrorsAndClears : Obligations.FlagsChangeOnlyByErrorsAndClears := fun _ _ _ h =>
  ⟨(exec_next h).flag_set .cfgerr, (exec_next h).flag_set .allocerr, (exec_next h).flag_set .cmderr,
    (exec_next h).flag_cleared .cfgerr, (exec_next h).flag_cleared .allocerr, (exec_next h).flag_cleared .cmderr⟩

/-- Settles O32: START, the last engine step, RELEASE and reset are the effects that touch STATE. -/
theorem sequencerTransitions : Obligations.SequencerTransitions := by
  intro i s t h
  cases exec_next h with
  | answer | ctrl | srate | wfreq => exact .inl rfl
  | clear data => exact .inl (clearFlags_seq data s)
  | error _ e => exact .inl (s.raise_seq e)
  | start g hg => exact .inr (.inl ⟨rfl, (startCheck_ok hg).1, rfl⟩)
  | release hr => exact .inr (.inr (.inr (.inl ⟨rfl, hr, rfl⟩)))
  | reset => exact .inr (.inr (.inr (.inr ⟨rfl, rfl⟩)))
  | frame c words hb =>
    rcases State.afterFrame_seq_cases c words hb with ⟨hlast, hready⟩ | ⟨-, hbusy⟩
    · exact .inr (.inr (.inl ⟨rfl, hb, hready, rfl, hlast⟩))
    · exact .inl (hbusy.trans hb.symm)

/-- Settles O33: START and reset are the effects that touch the active registers. -/
theorem activeRegistersChangeOnlyByStart : Obligations.ActiveRegistersChangeOnlyByStart := by
  intro i s t h
  cases exec_next h with
  | answer | ctrl | srate | wfreq | clear | release | frame => exact .inl ⟨rfl, rfl, rfl, rfl, rfl, rfl⟩
  | error _ e => exact .inl ⟨s.raise_fpc e, s.raise_bpf e, s.raise_blen e, s.raise_wrate e, s.raise_tmult e, s.raise_actl e⟩
  | start g hg => exact .inr (.inl ⟨rfl, (startCheck_ok hg).1, rfl, rfl⟩)
  | reset => exact .inr (.inr rfl)

/-- An engine step in BUSY advances FIDX (10_state R39). -/
theorem execEngFrame_fidx {s t : State} (h : exec .engFrame s = .next t) (hb : s.seq = BUSY) : t.fidx = s.fidx + 1 := by
  rcases execEngFrame_next h with ⟨hne, -⟩ | ⟨-, -, c, words, -, -, -, rfl⟩
  · exact absurd hb hne
  · exact s.afterFrame_fidx c words

/-- Every effect that moves FIDX is an engine step in BUSY, an accepted START, or reset (10_state R39). -/
theorem Effect.fidx_cases {s t : State} {i : Instr} (h : Effect s i t) :
    t.fidx = s.fidx ∨ (i = .engFrame ∧ s.seq = BUSY) ∨ (i = .cmdStart ∧ s.seq = IDLE ∧ t.seq = BUSY) ∨ i = .reset := by
  cases h with
  | answer | ctrl | srate | wfreq | clear | release => exact .inl rfl
  | error _ e => exact .inl (s.raise_fidx e)
  | frame c words hb => exact .inr (.inl ⟨rfl, hb⟩)
  | start g hg => exact .inr (.inr (.inl ⟨rfl, (startCheck_ok hg).1, rfl⟩))
  | reset => exact .inr (.inr (.inr rfl))

/-- A START that takes IDLE to BUSY clears FIDX (43_cycle_control R171). -/
theorem execCmdStart_fidx {s t : State} (h : exec .cmdStart s = .next t) (hs : s.seq = IDLE) (ht : t.seq = BUSY) : t.fidx = 0 := by
  cases exec_next h with
  | answer => exact absurd (hs.symm.trans ht) IDLE_ne_BUSY
  | error _ e => exact absurd (hs.symm.trans ((s.raise_seq e).symm.trans ht)) IDLE_ne_BUSY
  | start g => exact s.beginCycle_fidx g

/-- Settles O34: the three operations that move FIDX, and no others. -/
theorem frameIndexChanges : Obligations.FrameIndexChanges := by
  intro i s t h
  refine ⟨?_, ?_, ?_, fun hframe hstart hreset => ?_⟩
  · rintro rfl
    exact execEngFrame_fidx h
  · rintro rfl
    exact execCmdStart_fidx h
  · rintro rfl
    cases h
    rfl
  · rcases (exec_next h).fidx_cases with hkept | hmoved | hmoved | hmoved
    · exact hkept
    · exact absurd hmoved hframe
    · exact absurd hmoved hstart
    · exact absurd hmoved hreset

/-- Settles O35: each of the three writes touches its own register. -/
theorem configurationChangesOnlyByItsWrites : Obligations.ConfigurationChangesOnlyByItsWrites := by
  intro i s t h
  cases exec_next h with
  | answer | clear | start | release | frame => exact ⟨.inl rfl, .inl rfl, .inl rfl⟩
  | ctrl data => exact ⟨.inr (.inr ⟨data, rfl⟩), .inl rfl, .inl rfl⟩
  | srate data => exact ⟨.inl rfl, .inr (.inr ⟨data, rfl⟩), .inl rfl⟩
  | wfreq data => exact ⟨.inl rfl, .inl rfl, .inr (.inr ⟨data, rfl⟩)⟩
  | error _ e => exact ⟨.inl (s.raise_ctrl e), .inl (s.raise_srate e), .inl (s.raise_wfreq e)⟩
  | reset => exact ⟨.inr (.inl rfl), .inr (.inl rfl), .inr (.inl rfl)⟩

/-- No effect but the engine's frame and reset touches the memory (10_state R40). -/
theorem Effect.mem_eq {s t : State} {i : Instr} (h : Effect s i t) (hframe : i ≠ .engFrame) (hreset : i ≠ .reset) : t.mem = s.mem := by
  cases h with
  | answer | ctrl | srate | wfreq | clear | start | release => rfl
  | error _ e => exact s.raise_mem e
  | frame => exact absurd rfl hframe
  | reset => exact absurd rfl hreset

/-- Settles O36: the memory as a whole is as it was. -/
theorem onlyTheEngineWritesFbuf : Obligations.OnlyTheEngineWritesFbuf := fun _ _ _ h hframe hreset _ => by
  rw [(exec_next h).mem_eq hframe hreset]

/-- The stored bits `DATA[6:0]` of CTRL, read back with the reserved bits 0 (10_state R25, 42_host_registers R140, R141). -/
theorem ctrl_stored_bits (data : Word) : (data.extractLsb' 0 7).setWidth 32 = data &&& 0x7F#32 := by
  apply BitVec.eq_of_toNat_eq
  have hmask : data.toNat &&& 0x7F = data.toNat % 2 ^ 7 := Nat.and_two_pow_sub_one_eq_mod _ 7
  simp [hmask]
  omega

/-- Settles O22: the write stores the bits that the read returns. -/
theorem configurationReadsBackAsWritten : Obligations.ConfigurationReadsBackAsWritten :=
  fun _ data => ⟨⟨_, _, rfl, rfl, ctrl_stored_bits data⟩, ⟨_, _, rfl, rfl, rfl⟩, ⟨_, _, rfl, rfl, rfl⟩⟩

/-- Settles O46: the table of 30_encoding R76, checked at each of the 128 values of CTRL. -/
theorem legalConfigurations : Obligations.LegalConfigurations := by
  unfold Obligations.LegalConfigurations
  decide

end Sys2Proof.Machine
end

section
/-! What the decoder refuses and what it can answer, and the refusals of a step (20_memory R56, R57; 30_encoding R71, R73). -/

namespace Sys2Proof.Machine

/-- The decoder's only refusal (20_memory R56): every aligned transaction has a row (30_encoding R71). -/
theorem decode_eq_error_iff {ht : HT} {r : DecodeRefusal} :
    decode ht = .error r ↔ ht.extractLsb' 32 2 ≠ 0#2 ∧ r = .misaligned := by
  rw [← addrOf_low]
  dsimp only [decode]
  split_ifs with hlow hwindow
  · simp [hlow, eq_comm]
  · simp [hlow]
  · simp [hlow]

/-- The two internal operations are those without an encoding (30_encoding R73). -/
theorem encode_eq_none_iff {i : Instr} : encode i = none ↔ i = .engFrame ∨ i = .reset := by
  cases i with
  | engFrame => exact iff_of_true rfl (.inl rfl)
  | reset => exact iff_of_true rfl (.inr rfl)
  | _ => exact iff_of_false (Option.some_ne_none _) (by nofun)

/-- Settles O4: the decoder refuses nothing else, and the encoder has a transaction for every other constructor. -/
theorem onlyMisalignedTransactionsAreRefused : Obligations.OnlyMisalignedTransactionsAreRefused :=
  ⟨fun _ => ⟨fun ⟨_, h⟩ => (decode_eq_error_iff.mp h).1, fun h => ⟨.misaligned, decode_eq_error_iff.mpr ⟨h, rfl⟩⟩⟩,
    fun _ _ h => (decode_eq_error_iff.mp h).2, fun _ => encode_eq_none_iff⟩

theorem decodeCommand_has_encoding (data : Word) : encode (decodeCommand data) ≠ none := by
  unfold decodeCommand
  split <;> exact Option.some_ne_none _

theorem decodeLowRead_has_encoding (addr : BitVec 32) : encode (decodeLowRead addr) ≠ none := by
  unfold decodeLowRead
  split <;> exact Option.some_ne_none _

theorem decodeLowWrite_has_encoding (addr : BitVec 32) (data : Word) : encode (decodeLowWrite addr data) ≠ none := by
  unfold decodeLowWrite
  split
  case h_4 => exact decodeCommand_has_encoding data
  all_goals exact Option.some_ne_none _

/-- No transaction decodes to an internal operation (30_encoding R73). -/
theorem decode_has_encoding {ht : HT} {i : Instr} (h : decode ht = .ok i) : encode i ≠ none := by
  dsimp only [decode] at h
  split_ifs at h <;> cases h
  · exact Option.some_ne_none _
  · exact Option.some_ne_none _
  · exact decodeLowWrite_has_encoding _ _
  · exact decodeLowRead_has_encoding _

/-- An access that the decoder gives no meaning stops the step with its refusal. -/
theorem step_of_refused_access {s : State} {bytes : Nat} {ht : HT} {rest : List Event} {r : DecodeRefusal}
    (hp : s.pending = .access bytes ht :: rest) (hd : decodeAccess bytes ht = .error r) : step s = .refused (refusalOf r) := by
  simp [step, nextOperation, hp, hd]

/-- Settles O10: an access of 4 bytes is refused as its transaction is. -/
theorem misalignedTransactionIsRefused : Obligations.MisalignedTransactionIsRefused := fun _ _ _ hp hlow =>
  step_of_refused_access (r := .misaligned) hp (decode_eq_error_iff.mpr ⟨hlow, rfl⟩)

/-- Settles O11: the width is looked at before the address (log 9). -/
theorem otherWidthsAreRefused : Obligations.OtherWidthsAreRefused := fun _ _ _ _ hp hbytes =>
  step_of_refused_access (r := .width) hp (if_pos hbytes)

end Sys2Proof.Machine
end

section
/-! The host's reads: what any read leaves, the words of FBUF as bytes, and the cycle's words as the transport reads them (20_memory
R53, R54, R58). -/

namespace Sys2Proof.Machine

/-- A read completes in every state. -/
theorem exec_read_completes {i : Instr} (hr : isRead i = true) (s : State) : ∃ t, exec i s = .next t := by
  cases i with
  | engFrame | cmdStart | cmdRelease => cases hr
  | _ => exact ⟨_, rfl⟩

/-- The effect of a read is its answer. -/
theorem Effect.of_read {s t : State} {i : Instr} (h : Effect s i t) (hr : isRead i = true) :
    ∃ v n, t = { s with rdata := v, draws := n } := by
  cases h with
  | answer _ v n => exact ⟨v, n, rfl⟩
  | error _ e hcommand => obtain rfl | rfl | ⟨data, rfl⟩ := hcommand <;> cases hr
  | ctrl | srate | wfreq | clear | start | release | frame | reset => cases hr

/-- Settles O18: every read completes, and an answer to the host is its only effect. -/
theorem readsChangeNothingOfTheBlock : Obligations.ReadsChangeNothingOfTheBlock := by
  intro i s hr
  obtain ⟨t, ht⟩ := exec_read_completes hr s
  obtain ⟨v, n, rfl⟩ := (exec_next ht).of_read hr
  exact ⟨v, n, ht⟩

/-- A word is known where its four bytes are, and they are its bytes, the low one first (20_memory R53). -/
theorem Memory.readWord_eq_some {m : Memory} {a : Nat} {v : Word} (h : m.readWord a = some v) :
    ∃ b0 b1 b2 b3, m.readByte a = some b0 ∧ m.readByte (a + 1) = some b1 ∧ m.readByte (a + 2) = some b2 ∧
      m.readByte (a + 3) = some b3 ∧ v = b3 ++ b2 ++ b1 ++ b0 := by
  simp only [Memory.readWord, Option.bind_eq_bind, Option.bind_eq_some_iff, Option.pure_def, Option.some.injEq] at h
  obtain ⟨b0, h0, b1, h1, b2, h2, b3, h3, rfl⟩ := h
  exact ⟨b0, b1, b2, b3, h0, h1, h2, h3, rfl⟩

/-- The bytes of a word put together from four. -/
theorem bytes_of_word (b0 b1 b2 b3 : Byte) :
    (b3 ++ b2 ++ b1 ++ b0).extractLsb' 0 8 = b0 ∧ (b3 ++ b2 ++ b1 ++ b0).extractLsb' 8 8 = b1 ∧
      (b3 ++ b2 ++ b1 ++ b0).extractLsb' 16 8 = b2 ∧ (b3 ++ b2 ++ b1 ++ b0).extractLsb' 24 8 = b3 := by
  simp (disch := omega) only [BitVec.extractLsb'_append_eq_of_le, BitVec.extractLsb'_append_eq_of_add_le, Nat.reduceSub,
    BitVec.extractLsb'_eq_self, and_self]

/-- Byte `n` of a known word (20_memory R53). -/
theorem Memory.readByte_of_readWord {m : Memory} {a n : Nat} {v : Word} (h : m.readWord a = some v) (hn : n < 4) :
    m.readByte (a + n) = some (v.extractLsb' (8 * n) 8) := by
  obtain ⟨b0, b1, b2, b3, h0, h1, h2, h3, rfl⟩ := Memory.readWord_eq_some h
  obtain ⟨e0, e1, e2, e3⟩ := bytes_of_word b0 b1 b2 b3
  match n, hn with
  | 0, _ => exact h0.trans (congrArg some e0.symm)
  | 1, _ => exact h1.trans (congrArg some e1.symm)
  | 2, _ => exact h2.trans (congrArg some e2.symm)
  | 3, _ => exact h3.trans (congrArg some e3.symm)

/-- Settles O50: the byte view and the word view are of the same memory. -/
theorem byteViewIsLittleEndian : Obligations.ByteViewIsLittleEndian := by
  intro s k n v hv hn
  have hbyte := Memory.readByte_of_readWord hv hn
  rwa [fbufAddr, Nat.add_assoc] at hbyte

/-- A read of a known word below the capacity returns it, outside BUSY (42_host_registers R162). -/
theorem execRdFbuf_of_known {s : State} {k : WordIndex} {v : Word} (hk : k.toNat < s.bufBytesMax / 4) (hs : s.seq ≠ BUSY)
    (hv : s.fbufWord k.toNat = some v) : exec (.rdFbuf k) s = .next (s.deliver v) := by
  simp [exec, execRdFbuf, Nat.not_le.mpr hk, hs, hv]

/-- The active buffer is FPC frames of whole words, inside FBUF (10_state R41 item 5, 41_packer R121). -/
theorem State.activeOk.words_of_blen {s : State} (h : s.activeOk) {c : Cfg} (hc : legalCfg s.actl = some c) :
    s.blen.toNat / 4 = s.fpc.toNat * wordsPerFrame c.C c.W ∧ s.blen.toNat ≤ s.bufBytesMax := by
  obtain ⟨c', hc', -, hblen, hcap, -⟩ := h
  cases hc'.symm.trans hc
  rw [← (wordsPerFrame_legal hc).1, Nat.mul_left_comm] at hblen
  exact ⟨by omega, hcap⟩

/-- Where all frames of the cycle lie in FBUF, its words are the cycle's (41_packer R131). -/
theorem State.holdsFrames.fbufWord_eq {s : State} (h : s.holdsFrames s.fpc.toNat) {c : Cfg} (hc : legalCfg s.actl = some c) {k : Nat}
    (hk : k < s.fpc.toNat * wordsPerFrame c.C c.W) : s.fbufWord k = (cycleWords c s.fpc.toNat)[k]? := by
  have hi : k / wordsPerFrame c.C c.W < s.fpc.toNat := Nat.div_lt_of_lt_mul (by rwa [Nat.mul_comm])
  have hw : k % wordsPerFrame c.C c.W < wordsPerFrame c.C c.W := Nat.mod_lt _ (wordsPerFrame_legal hc).2
  obtain ⟨words, hp, hlen⟩ := pack_legal hc s.fpc.toNat (k / wordsPerFrame c.C c.W)
  calc s.fbufWord k
      = s.fbufWord (k / wordsPerFrame c.C c.W * wordsPerFrame c.C c.W + k % wordsPerFrame c.C c.W) := by rw [Nat.div_add_mod']
    _ = words[k % wordsPerFrame c.C c.W]? := h c hc _ hi words hp _ (by rwa [hlen])
    _ = (cycleWords c s.fpc.toNat)[k]? := by rw [← cycleWords_get hc hi hw hp, Nat.div_add_mod']

/-- A READY state of the invariant has its whole cycle in FBUF (10_state R41 item 3). -/
theorem State.Inv.holdsFrames_of_ready {s : State} (h : s.Inv) (hs : s.seq = READY) : s.holdsFrames s.fpc.toNat ∧ s.activeOk := by
  obtain ⟨hlast, hpos⟩ := h.ready hs
  exact ⟨hlast ▸ h.frames (hs ▸ READY_ne_IDLE), h.started fun h0 => by simp [h0] at hpos⟩

/-- Settles O56: the word is known, and below the capacity, because the cycle's buffer lies inside FBUF. -/
theorem transportReadsTheCycle : Obligations.TransportReadsTheCycle := by
  intro s c k v hinv hs hc hk hv
  obtain ⟨hframes, hactive⟩ := hinv.holdsFrames_of_ready hs
  obtain ⟨hblen, hcap⟩ := hactive.words_of_blen hc
  exact execRdFbuf_of_known (by omega) (hs ▸ READY_ne_BUSY) ((hframes.fbufWord_eq hc (hblen ▸ hk)).trans hv)

end Sys2Proof.Machine
end

section
/-! The hand-off: in READY nothing but a reset touches the buffer (20_memory R60, 41_packer R131). -/

namespace Sys2Proof.Machine

/-- A step that completes found nothing to do, or ran the operation of its event. -/
theorem step_next_operation {s t : State} (h : step s = .next t) :
    t = s ∨ ∃ i, nextOperation s = .ok (some i) ∧ exec i s.advance = .next t := by
  unfold step at h
  split at h
  · cases h
  · cases h
    exact .inl rfl
  · exact .inr ⟨_, ‹_›, h⟩

/-- RESET is run for the environment's event alone: no transaction decodes to it (30_encoding R73). -/
theorem pending_of_nextOperation_reset {s : State} (h : nextOperation s = .ok (some .reset)) : ∃ rest, s.pending = .reset :: rest := by
  match hp : s.pending with
  | [] =>
    rw [nextOperation_of_empty hp] at h
    split at h <;> cases h
  | .engine :: _ =>
    rw [nextOperation_of_engine hp] at h
    cases h
  | .reset :: rest => exact ⟨rest, rfl⟩
  | .access bytes ht :: _ =>
    simp only [nextOperation, hp] at h
    split at h <;> cases h
    rename_i hd
    unfold decodeAccess at hd
    split at hd
    · cases hd
    · exact absurd rfl (decode_has_encoding hd)

/-- In READY no effect but a reset touches the buffer: START and the engine are not enabled. -/
theorem Effect.keeps_ready_buffer {s t : State} {i : Instr} (h : Effect s i t) (hs : s.seq = READY) (hreset : i ≠ .reset) :
    t.mem = s.mem ∧ (t.seq = READY ∨ t.seq = IDLE) ∧ t.blen = s.blen := by
  cases h with
  | answer | ctrl | srate | wfreq | clear => exact ⟨rfl, .inl hs, rfl⟩
  | error _ e => exact ⟨s.raise_mem e, .inl ((s.raise_seq e).trans hs), s.raise_blen e⟩
  | release => exact ⟨rfl, .inr rfl, rfl⟩
  | start g hg => exact absurd (hs.symm.trans (startCheck_ok hg).1) READY_ne_IDLE
  | frame c words hb => exact absurd (hs.symm.trans hb) READY_ne_BUSY
  | reset => exact absurd rfl hreset

/-- Settles O55: the step runs no reset, and every other effect leaves the buffer of a READY state. -/
theorem readyBufferIsStable : Obligations.ReadyBufferIsStable := by
  intro s t hs hpending hstep
  rcases step_next_operation hstep with rfl | ⟨i, hop, hexec⟩
  · exact ⟨fun _ => rfl, .inl hs, rfl⟩
  · have hreset : i ≠ .reset := by
      rintro rfl
      obtain ⟨rest, hp⟩ := pending_of_nextOperation_reset hop
      exact hpending rest hp
    obtain ⟨hmem, hseq, hblen⟩ := (exec_next hexec).keeps_ready_buffer hs hreset
    exact ⟨fun a => by rw [hmem, State.advance_mem], hseq, hblen⟩

end Sys2Proof.Machine
end

section
/-! What a transaction decodes to, by kind of address: a register (10_state R23), a word of the FBUF window, a word that is neither, and
an unaligned address (30_encoding R71, R72; 20_memory R50, R56). -/

namespace Sys2Proof.Machine

/-- The registers in the order of their offsets (10_state R23). -/
def registers : List RegName := [.ctrl, .srate, .wfreq, .cmd, .status, .fpc, .bpf, .blen, .wrate, .tmult, .fidx, .actl]

/-- The operation that a read of a register stands for (30_encoding R72). -/
def registerRead : RegName → Instr
  | .ctrl => .rdCtrl
  | .srate => .rdSrate
  | .wfreq => .rdWfreq
  | .cmd => .rdCmd
  | .status => .rdStatus
  | .fpc => .rdFpc
  | .bpf => .rdBpf
  | .blen => .rdBlen
  | .wrate => .rdWrate
  | .tmult => .rdTmult
  | .fidx => .rdFidx
  | .actl => .rdActl

/-- The operation that a write to a register stands for (30_encoding R72, R75). -/
def registerWrite : RegName → Word → Instr
  | .ctrl, data => .wrCtrl data
  | .srate, data => .wrSrate data
  | .wfreq, data => .wrWfreq data
  | .cmd, data => decodeCommand data
  | .status, data => .wrStatus data
  | .fpc, data => .wrFpc data
  | .bpf, data => .wrBpf data
  | .blen, data => .wrBlen data
  | .wrate, data => .wrWrate data
  | .tmult, data => .wrTmult data
  | .fidx, data => .wrFidx data
  | .actl, data => .wrActl data

theorem decode_registerRead (r : RegName) (data : Word) : decode (transaction false (regAddr r) data) = .ok (registerRead r) := by
  rw [decode_transaction]
  cases r <;> rfl

theorem decode_registerWrite (r : RegName) (data : Word) :
    decode (transaction true (regAddr r) data) = .ok (registerWrite r data) := by
  rw [decode_transaction]
  cases r <;> rfl

theorem decode_windowRead (k : WordIndex) (data : Word) : decode (transaction false (windowAddr k) data) = .ok (.rdFbuf k) := by
  simp [decode_transaction]

theorem decode_windowWrite (k : WordIndex) (data : Word) : decode (transaction true (windowAddr k) data) = .ok (.wrFbuf k data) := by
  simp [decode_transaction]

theorem decode_unmappedRead {k : WordIndex} (hk : 12 ≤ k.toNat) (data : Word) :
    decode (transaction false (lowAddr k) data) = .ok (.rdUnmapped k) := by
  simp [decode_transaction, (decodeLow_unmapped k hk data).1]

theorem decode_unmappedWrite {k : WordIndex} (hk : 12 ≤ k.toNat) (data : Word) :
    decode (transaction true (lowAddr k) data) = .ok (.wrUnmapped k data) := by
  simp [decode_transaction, (decodeLow_unmapped k hk data).2]

theorem decode_misaligned (write : Bool) {addr : BitVec 32} (h : addr.extractLsb' 0 2 ≠ 0#2) (data : Word) :
    decode (transaction write addr data) = .error .misaligned :=
  decode_eq_error_iff.mpr ⟨by rwa [← addrOf_low, addrOf_transaction], rfl⟩

/-- Every code but the three of 43_cycle_control R170 to R172 is invalid (R173). -/
theorem decodeCommand_of_gt {data : Word} (h : 2 < data.toNat) : decodeCommand data = .cmdInvalid data := by
  unfold decodeCommand
  split
  · exact absurd h (by decide)
  · exact absurd h (by decide)
  · exact absurd h (by decide)
  · rfl

/-- Settles O2: at a register's address the decoder computes, and the operands that stand for "any other" value are of no other row. -/
theorem decodeOfEncodeIsTheOperation : Obligations.DecodeOfEncodeIsTheOperation := by
  intro i w hwf henc
  cases i with
  | engFrame | reset => cases henc
  | cmdInvalid data =>
    cases henc
    exact (decode_registerWrite .cmd data).trans (congrArg _ (decodeCommand_of_gt (of_decide_eq_true hwf)))
  | rdFbuf k =>
    cases henc
    exact decode_windowRead k 0
  | wrFbuf k data =>
    cases henc
    exact decode_windowWrite k data
  | rdUnmapped k =>
    cases henc
    exact decode_unmappedRead (of_decide_eq_true hwf) 0
  | wrUnmapped k data =>
    cases henc
    exact decode_unmappedWrite (of_decide_eq_true hwf) data
  | _ =>
    cases henc
    exact decode_transaction _ _ _

/-- Settles O1: fifteen fixed transactions, evaluated. -/
theorem wordsOfTheSpecDecode : Obligations.WordsOfTheSpecDecode := by
  unfold Obligations.WordsOfTheSpecDecode
  decide

end Sys2Proof.Machine
end

section
/-! The six kinds of access that have an operation, and that every aligned transaction is one of them (30_encoding R72, 20_memory R50). -/

namespace Sys2Proof.Machine

/-- The access with the given fields stands for the operation: a read or a write, of a register, of the FBUF window, or of a word that
is neither (30_encoding R72). -/
inductive Access : Bool → BitVec 32 → Word → Instr → Prop
  | registerRead (r : RegName) (data : Word) : Access false (regAddr r) data (registerRead r)
  | registerWrite (r : RegName) (data : Word) : Access true (regAddr r) data (registerWrite r data)
  | windowRead (k : WordIndex) (data : Word) : Access false (windowAddr k) data (.rdFbuf k)
  | windowWrite (k : WordIndex) (data : Word) : Access true (windowAddr k) data (.wrFbuf k data)
  | unmappedRead (k : WordIndex) (hk : 12 ≤ k.toNat) (data : Word) : Access false (lowAddr k) data (.rdUnmapped k)
  | unmappedWrite (k : WordIndex) (hk : 12 ≤ k.toNat) (data : Word) : Access true (lowAddr k) data (.wrUnmapped k data)

theorem regAddr_registers : ∀ n, (hn : n < registers.length) → (regAddr registers[n]).toNat = 4 * n := by decide

/-- The words 0 to 11 are the registers (10_state R23). -/
theorem lowAddr_of_lt {k : WordIndex} (hk : k.toNat < registers.length) : ∃ r, lowAddr k = regAddr r :=
  ⟨registers[k.toNat], BitVec.eq_of_toNat_eq (by rw [lowAddr_toNat, regAddr_registers])⟩

theorem aligned_address_cases {addr : BitVec 32} (h : addr.extractLsb' 0 2 = 0#2) :
    (∃ r, addr = regAddr r) ∨ (∃ k, addr = windowAddr k) ∨ ∃ k : WordIndex, 12 ≤ k.toNat ∧ addr = lowAddr k := by
  cases hm : addr.msb with
  | true => exact .inr (.inl ⟨_, (windowAddr_wordIndexOf addr h hm).symm⟩)
  | false =>
    rw [← lowAddr_wordIndexOf addr h hm]
    rcases Nat.lt_or_ge (wordIndexOf addr).toNat 12 with hlt | hge
    · exact .inl (lowAddr_of_lt hlt)
    · exact .inr (.inr ⟨_, hge, rfl⟩)

theorem exists_access (write : Bool) {addr : BitVec 32} (h : addr.extractLsb' 0 2 = 0#2) (data : Word) :
    ∃ i, Access write addr data i := by
  rcases aligned_address_cases h with ⟨r, rfl⟩ | ⟨k, rfl⟩ | ⟨k, hk, rfl⟩ <;> cases write
  · exact ⟨_, .registerRead r data⟩
  · exact ⟨_, .registerWrite r data⟩
  · exact ⟨_, .windowRead k data⟩
  · exact ⟨_, .windowWrite k data⟩
  · exact ⟨_, .unmappedRead k hk data⟩
  · exact ⟨_, .unmappedWrite k hk data⟩

section
variable {write : Bool} {addr : BitVec 32} {data : Word} {i : Instr}

theorem Access.decode_eq (h : Access write addr data i) : decode (transaction write addr data) = .ok i := by
  cases h with
  | registerRead r => exact decode_registerRead r data
  | registerWrite r => exact decode_registerWrite r data
  | windowRead k => exact decode_windowRead k data
  | windowWrite k => exact decode_windowWrite k data
  | unmappedRead k hk => exact decode_unmappedRead hk data
  | unmappedWrite k hk => exact decode_unmappedWrite hk data

/-- The code of a write to CMD is one of the three of 43_cycle_control R170 to R172, or invalid (R173). -/
theorem command_code_cases (data : Word) : data = 0 ∨ data = 1 ∨ data = 2 ∨ 2 < data.toNat := by bv_omega

theorem wellFormed_decodeCommand (data : Word) : WellFormed (decodeCommand data) = true := by
  rcases command_code_cases data with rfl | rfl | rfl | h
  · rfl
  · rfl
  · rfl
  · rw [decodeCommand_of_gt h]
    exact decide_eq_true h

theorem encode_decodeCommand (data : Word) : encode (decodeCommand data) = some (transaction true 0x0C#32 data) := by
  unfold decodeCommand
  split <;> rfl

theorem Access.wellFormed (h : Access write addr data i) : WellFormed i = true := by
  cases h with
  | registerRead r => cases r <;> rfl
  | registerWrite r =>
    cases r with
    | cmd => exact wellFormed_decodeCommand data
    | _ => rfl
  | windowRead | windowWrite => rfl
  | unmappedRead k hk | unmappedWrite k hk => exact decide_eq_true hk

/-- A write keeps all of its fields, and a read all but `DATA` (30_encoding R70). -/
theorem Access.encode_eq (h : Access write addr data i) :
    encode i = some (transaction write addr (if write then data else 0)) := by
  cases h with
  | registerRead r => cases r <;> rfl
  | registerWrite r =>
    cases r with
    | cmd => exact encode_decodeCommand data
    | _ => rfl
  | windowRead | windowWrite | unmappedRead | unmappedWrite => rfl

end

/-- The transactions that decode are the accesses of R72. -/
theorem access_of_decode {ht : HT} {i : Instr} (h : decode ht = .ok i) : Access (isWrite ht) (addrOf ht) (dataOf ht) i := by
  have haligned : (addrOf ht).extractLsb' 0 2 = 0#2 := by
    by_contra hne
    rw [← transaction_fields ht, decode_misaligned _ hne] at h
    cases h
  obtain ⟨j, hj⟩ := exists_access (isWrite ht) haligned (dataOf ht)
  have hdecode := hj.decode_eq
  rw [transaction_fields, h] at hdecode
  cases hdecode
  exact hj

/-- Settles O3, for each kind of access. -/
theorem encodeOfDecodeIsTheTransaction : Obligations.EncodeOfDecodeIsTheTransaction := fun _ _ h =>
  ⟨(access_of_decode h).wellFormed, (access_of_decode h).encode_eq⟩

end Sys2Proof.Machine
end

section
/-! The opcode table over the accesses: which rows accept one, which of them is heaviest, and the procedure of 30_encoding R71. -/

namespace Sys2Proof.Machine

/-- The masks of the table (30_encoding R72): a command's row goes by every bit, a register's by `RW` and `ADDR`, and the rows for a
whole half of the address space by what is left. -/
theorem row_mask_cases : ∀ row ∈ opcodeRows,
    (row.mask = 0x1FFFFFFFFFFFFFFFF#65 ∧
      isWrite row.pattern = true ∧ addrOf row.pattern = regAddr .cmd ∧ (dataOf row.pattern).toNat ≤ 2) ∨
    (row.mask = 0x1FFFFFFFF00000000#65 ∧ (addrOf row.pattern).toNat < 48) ∨ row.mask = 0x18000000300000000#65 := by
  decide

/-- The weight of a row's mask tells which of the three it is. -/
theorem row_mask_of_weight {row : OpcodeRow} (hrow : row ∈ opcodeRows) :
    row.mask = if maskWeight row.mask = 65 then 0x1FFFFFFFFFFFFFFFF#65
      else if maskWeight row.mask = 33 then 0x1FFFFFFFF00000000#65 else 0x18000000300000000#65 := by
  rcases row_mask_cases row hrow with ⟨hm, -⟩ | ⟨hm, -⟩ | hm
  · rw [hm, maskWeight_command]; rfl
  · rw [hm, maskWeight_register]; rfl
  · rw [hm, maskWeight_default]; rfl

theorem row_eq_of_mask_pattern_eq {r r' : OpcodeRow} (hr : r ∈ opcodeRows) (hr' : r' ∈ opcodeRows) (hmask : r.mask = r'.mask)
    (hpattern : r.pattern = r'.pattern) : r = r' := by
  have hnodup : (opcodeRows.map fun row => (row.mask, row.pattern)).Nodup := by decide
  exact List.inj_on_of_nodup_map hnodup hr hr' (Prod.ext hmask hpattern)

/-- Two rows of one weight that accept one transaction are one row: they have one mask, and so one match. -/
theorem row_eq_of_accepts {r r' : OpcodeRow} {ht : HT} (hr : r ∈ opcodeRows) (hr' : r' ∈ opcodeRows) (h : r.accepts ht = true)
    (h' : r'.accepts ht = true) (hw : maskWeight r.mask = maskWeight r'.mask) : r = r' := by
  have hmask : r.mask = r'.mask := by rw [row_mask_of_weight hr, row_mask_of_weight hr', hw]
  refine row_eq_of_mask_pattern_eq hr hr' hmask ?_
  rw [← eq_of_beq h, ← eq_of_beq h', hmask]

section
variable {row : OpcodeRow} {write : Bool} {addr : BitVec 32} {data : Word}

theorem accepts_iff_of_command (h : row.mask = 0x1FFFFFFFFFFFFFFFF#65) : row.accepts (transaction write addr data) = true ↔
    write = isWrite row.pattern ∧ addr = addrOf row.pattern ∧ data = dataOf row.pattern := by
  obtain ⟨n, m, p, b⟩ := row
  cases h
  simp [accepts_command, and_assoc]

theorem accepts_iff_of_register (h : row.mask = 0x1FFFFFFFF00000000#65) : row.accepts (transaction write addr data) = true ↔
    write = isWrite row.pattern ∧ addr = addrOf row.pattern ∧ dataOf row.pattern = 0 := by
  obtain ⟨n, m, p, b⟩ := row
  cases h
  simp [accepts_register, and_assoc]

theorem accepts_iff_of_default (h : row.mask = 0x18000000300000000#65) (haligned : addr.extractLsb' 0 2 = 0#2) :
    row.accepts (transaction write addr data) = true ↔
      write = isWrite row.pattern ∧ (if addr.msb then 0x80000000#32 else 0#32) = addrOf row.pattern ∧ dataOf row.pattern = 0 := by
  obtain ⟨n, m, p, b⟩ := row
  cases h
  simp [accepts_default, and_mask_default addr haligned, and_assoc]

/-- How heavy a row that accepts an access can be. -/
theorem weight_cases_of_accepts (hrow : row ∈ opcodeRows) (h : row.accepts (transaction write addr data) = true) :
    (maskWeight row.mask = 65 ∧ write = true ∧ addr = regAddr .cmd ∧ data.toNat ≤ 2) ∨
    (maskWeight row.mask = 33 ∧ addr.toNat < 48) ∨ maskWeight row.mask = 4 := by
  rcases row_mask_cases row hrow with ⟨hm, hw, ha, hd⟩ | ⟨hm, ha⟩ | hm
  · obtain ⟨rfl, rfl, rfl⟩ := (accepts_iff_of_command hm).mp h
    exact .inl ⟨hm ▸ maskWeight_command, hw, ha, hd⟩
  · obtain ⟨rfl, rfl, -⟩ := (accepts_iff_of_register hm).mp h
    exact .inr (.inl ⟨hm ▸ maskWeight_register, ha⟩)
  · exact .inr (.inr (hm ▸ maskWeight_default))

end

/-- A row that accepts a transaction, and no row that accepts it is heavier. -/
structure HeaviestFor (row : OpcodeRow) (ht : HT) : Prop where
  mem : row ∈ opcodeRows
  accepts : row.accepts ht = true
  weight_le : ∀ r ∈ opcodeRows, r.accepts ht = true → maskWeight r.mask ≤ maskWeight row.mask

theorem HeaviestFor.eq {r r' : OpcodeRow} {ht : HT} (h : HeaviestFor r ht) (h' : HeaviestFor r' ht) : r = r' :=
  row_eq_of_accepts h.mem h'.mem h.accepts h'.accepts
    (le_antisymm (h'.weight_le r h.mem h.accepts) (h.weight_le r' h'.mem h'.accepts))

theorem HeaviestFor.weight_lt {r r' : OpcodeRow} {ht : HT} (h : HeaviestFor r ht) (hr' : r' ∈ opcodeRows)
    (ha : r'.accepts ht = true) (hne : r' ≠ r) : maskWeight r'.mask < maskWeight r.mask :=
  lt_of_le_of_ne (h.weight_le r' hr' ha) fun hw => hne (row_eq_of_accepts hr' h.mem ha h.accepts hw)

section
variable {row : OpcodeRow} {write : Bool} {addr : BitVec 32} {data : Word}

theorem heaviestFor_of_command (hrow : row ∈ opcodeRows) (hm : row.mask = 0x1FFFFFFFFFFFFFFFF#65)
    (ha : row.accepts (transaction write addr data) = true) : HeaviestFor row (transaction write addr data) where
  mem := hrow
  accepts := ha
  weight_le r hr h := by
    rw [hm, maskWeight_command]
    rcases weight_cases_of_accepts hr h with ⟨hw, -⟩ | ⟨hw, -⟩ | hw <;> omega

theorem heaviestFor_of_register (hrow : row ∈ opcodeRows) (hm : row.mask = 0x1FFFFFFFF00000000#65)
    (ha : row.accepts (transaction write addr data) = true)
    (hcode : write = true → addr = regAddr .cmd → 2 < data.toNat) : HeaviestFor row (transaction write addr data) where
  mem := hrow
  accepts := ha
  weight_le r hr h := by
    rw [hm, maskWeight_register]
    rcases weight_cases_of_accepts hr h with ⟨-, hwrite, haddr, hdata⟩ | ⟨hw, -⟩ | hw
    · exact absurd (hcode hwrite haddr) (not_lt.mpr hdata)
    · omega
    · omega

theorem heaviestFor_of_default (hrow : row ∈ opcodeRows) (hm : row.mask = 0x18000000300000000#65)
    (ha : row.accepts (transaction write addr data) = true) (haddr : 48 ≤ addr.toNat) :
    HeaviestFor row (transaction write addr data) where
  mem := hrow
  accepts := ha
  weight_le r hr h := by
    rw [hm, maskWeight_default]
    rcases weight_cases_of_accepts hr h with ⟨-, -, rfl, -⟩ | ⟨-, hlow⟩ | hw
    · exact absurd haddr (by decide)
    · omega
    · omega

end

/-- The rows of the registers' reads (30_encoding R72). -/
theorem registerRead_row (r : RegName) : ∃ row ∈ opcodeRows,
    row.mask = 0x1FFFFFFFF00000000#65 ∧ row.pattern = transaction false (regAddr r) 0 ∧ row.build = fun _ => registerRead r := by
  cases r <;> simp [opcodeRows, opcodeRowsRead, transaction, regAddr, registerRead]

/-- The rows of the registers' writes, CMD's being that of the invalid codes (30_encoding R72). -/
theorem registerWrite_row (r : RegName) : ∃ row ∈ opcodeRows,
    row.mask = 0x1FFFFFFFF00000000#65 ∧ row.pattern = transaction true (regAddr r) 0 ∧
    row.build = fun ht => if r = .cmd then .cmdInvalid (dataOf ht) else registerWrite r (dataOf ht) := by
  cases r <;> simp [opcodeRows, opcodeRowsRead, opcodeRowsCommand, opcodeRowsWrite, transaction, regAddr, registerWrite]

/-- The rows of the three command codes (30_encoding R72). -/
theorem command_row {data : Word} (h : data.toNat ≤ 2) : ∃ row ∈ opcodeRows,
    row.mask = 0x1FFFFFFFFFFFFFFFF#65 ∧ row.pattern = transaction true (regAddr .cmd) data ∧
    row.build = fun _ => decodeCommand data := by
  rcases command_code_cases data with rfl | rfl | rfl | hgt
  case inr.inr.inr => omega
  all_goals simp [opcodeRows, opcodeRowsRead, opcodeRowsCommand, transaction, regAddr, decodeCommand]

/-- What the default rows build, by `RW` and `ADDR[31]` (30_encoding R72). -/
def defaultOperation : Bool → Bool → HT → Instr
  | false, true, ht => .rdFbuf (wordIndexOf (addrOf ht))
  | true, true, ht => .wrFbuf (wordIndexOf (addrOf ht)) (dataOf ht)
  | false, false, ht => .rdUnmapped (wordIndexOf (addrOf ht))
  | true, false, ht => .wrUnmapped (wordIndexOf (addrOf ht)) (dataOf ht)

theorem default_row (write window : Bool) : ∃ row ∈ opcodeRows,
    row.mask = 0x18000000300000000#65 ∧ row.pattern = transaction write (if window then 0x80000000#32 else 0#32) 0 ∧
    row.build = defaultOperation write window := by
  cases write <;> cases window <;>
    simp [opcodeRows, opcodeRowsRead, opcodeRowsCommand, opcodeRowsWrite, transaction, funext_iff, defaultOperation]

theorem exists_heaviest_default (write : Bool) {addr : BitVec 32} (haligned : addr.extractLsb' 0 2 = 0#2) (hge : 48 ≤ addr.toNat)
    (data : Word) : ∃ row, HeaviestFor row (transaction write addr data) ∧
      row.build (transaction write addr data) = defaultOperation write addr.msb (transaction write addr data) := by
  obtain ⟨row, hrow, hmask, hpattern, hbuild⟩ := default_row write addr.msb
  refine ⟨row, heaviestFor_of_default hrow hmask ((accepts_iff_of_default hmask haligned).mpr ?_) hge, by rw [hbuild]⟩
  simp [hpattern]

theorem exists_heaviest_registerRead (r : RegName) (data : Word) : ∃ row, HeaviestFor row (transaction false (regAddr r) data) ∧
    row.build (transaction false (regAddr r) data) = registerRead r := by
  obtain ⟨row, hrow, hmask, hpattern, hbuild⟩ := registerRead_row r
  refine ⟨row, heaviestFor_of_register hrow hmask ((accepts_iff_of_register hmask).mpr ?_) (by nofun), by rw [hbuild]⟩
  simp [hpattern]

theorem exists_heaviest_command {data : Word} (h : data.toNat ≤ 2) : ∃ row,
    HeaviestFor row (transaction true (regAddr .cmd) data) ∧
    row.build (transaction true (regAddr .cmd) data) = decodeCommand data := by
  obtain ⟨row, hrow, hmask, hpattern, hbuild⟩ := command_row h
  refine ⟨row, heaviestFor_of_command hrow hmask ((accepts_iff_of_command hmask).mpr ?_), by rw [hbuild]⟩
  simp [hpattern]

theorem eq_cmd_of_regAddr_eq {r : RegName} (h : regAddr r = regAddr .cmd) : r = .cmd := by
  cases r with
  | cmd => rfl
  | _ => exact absurd h (by decide)

theorem exists_heaviest_registerWrite {r : RegName} {data : Word} (h : r = .cmd → 2 < data.toNat) : ∃ row,
    HeaviestFor row (transaction true (regAddr r) data) ∧
    row.build (transaction true (regAddr r) data) = registerWrite r data := by
  obtain ⟨row, hrow, hmask, hpattern, hbuild⟩ := registerWrite_row r
  refine ⟨row, heaviestFor_of_register hrow hmask ((accepts_iff_of_register hmask).mpr ?_)
    fun _ ha => h (eq_cmd_of_regAddr_eq ha), ?_⟩
  · simp [hpattern]
  · simp only [hbuild, dataOf_transaction]
    split_ifs with hr
    · subst hr
      exact (decodeCommand_of_gt (h rfl)).symm
    · rfl

theorem windowAddr_toNat_ge (k : WordIndex) : 48 ≤ (windowAddr k).toNat :=
  le_trans (by decide) (BitVec.toNat_ge_of_msb_true (windowAddr_msb k))

theorem lowAddr_toNat_ge {k : WordIndex} (hk : 12 ≤ k.toNat) : 48 ≤ (lowAddr k).toNat := by
  rw [lowAddr_toNat]
  omega

/-- The heaviest row of an access builds its operation. -/
theorem Access.exists_heaviest {write : Bool} {addr : BitVec 32} {data : Word} {i : Instr} (h : Access write addr data i) :
    ∃ row, HeaviestFor row (transaction write addr data) ∧ row.build (transaction write addr data) = i := by
  cases h with
  | registerRead r => exact exists_heaviest_registerRead r data
  | registerWrite r =>
    by_cases hcode : r = .cmd → 2 < data.toNat
    · exact exists_heaviest_registerWrite hcode
    · obtain ⟨rfl, hdata⟩ := Classical.not_imp.mp hcode
      exact exists_heaviest_command (not_lt.mp hdata)
  | windowRead k =>
    simpa [defaultOperation] using exists_heaviest_default false (windowAddr_low k) (windowAddr_toNat_ge k) data
  | windowWrite k =>
    simpa [defaultOperation] using exists_heaviest_default true (windowAddr_low k) (windowAddr_toNat_ge k) data
  | unmappedRead k hk =>
    simpa [defaultOperation] using exists_heaviest_default false (lowAddr_low k) (lowAddr_toNat_ge hk) data
  | unmappedWrite k hk =>
    simpa [defaultOperation] using exists_heaviest_default true (lowAddr_low k) (lowAddr_toNat_ge hk) data

/-- Every aligned transaction decodes to what its heaviest row builds (30_encoding R71). -/
theorem exists_heaviest_of_aligned {ht : HT} (h : ht.extractLsb' 32 2 = 0#2) :
    ∃ row, HeaviestFor row ht ∧ decode ht = .ok (row.build ht) := by
  rw [← addrOf_low] at h
  obtain ⟨i, haccess⟩ := exists_access (isWrite ht) h (dataOf ht)
  obtain ⟨row, hrow, hbuild⟩ := haccess.exists_heaviest
  have hdecode := haccess.decode_eq
  rw [transaction_fields] at hrow hbuild hdecode
  exact ⟨row, hrow, by rw [hbuild, hdecode]⟩

/-- Settles O6: of two rows that accept one transaction the other is strictly lighter than a heaviest one. -/
theorem exactlyOneHeaviestRow : Obligations.ExactlyOneHeaviestRow := by
  intro ht haligned
  obtain ⟨row, hrow, hdecode⟩ := exists_heaviest_of_aligned haligned
  exact ⟨row, hrow.mem, hrow.accepts, hdecode, fun r' hr' ha hne => hrow.weight_lt hr' ha fun he => hne (he ▸ rfl)⟩

theorem heaviestRow_eq_none {rows : List OpcodeRow} (h : heaviestRow rows = none) : rows = [] := by
  cases rows with
  | nil => rfl
  | cons r rs =>
    unfold heaviestRow at h
    split at h <;> cases h

theorem heaviestRow_eq_some {rows : List OpcodeRow} {best : OpcodeRow} (h : heaviestRow rows = some best) :
    best ∈ rows ∧ ∀ r ∈ rows, maskWeight r.mask ≤ maskWeight best.mask := by
  induction rows generalizing best with
  | nil => cases h
  | cons r rs ih =>
    unfold heaviestRow at h
    split at h
    · next hnone =>
      cases h
      simp [heaviestRow_eq_none hnone]
    · next best' hbest =>
      obtain ⟨hmem, hle⟩ := ih hbest
      split_ifs at h with hw <;> cases h
      · exact ⟨List.mem_cons_self, List.forall_mem_cons.mpr ⟨le_rfl, fun r' hr' => (hle r' hr').trans hw⟩⟩
      · exact ⟨List.mem_cons_of_mem _ hmem, List.forall_mem_cons.mpr ⟨(not_le.mp hw).le, hle⟩⟩

/-- The search of R71 over the rows that accept a transaction finds the heaviest one. -/
theorem HeaviestFor.heaviestRow_eq {row : OpcodeRow} {ht : HT} (h : HeaviestFor row ht) :
    heaviestRow (opcodeRows.filter (·.accepts ht)) = some row := by
  have hmem : row ∈ opcodeRows.filter (·.accepts ht) := List.mem_filter.mpr ⟨h.mem, h.accepts⟩
  cases hbest : heaviestRow (opcodeRows.filter (·.accepts ht)) with
  | none => exact absurd (heaviestRow_eq_none hbest) (List.ne_nil_of_mem hmem)
  | some best =>
    obtain ⟨hb, hle⟩ := heaviestRow_eq_some hbest
    obtain ⟨hb, ha⟩ := List.mem_filter.mp hb
    exact congrArg some (HeaviestFor.eq ⟨hb, ha, fun r hr hacc => hle r (List.mem_filter.mpr ⟨hr, hacc⟩)⟩ h)

/-- Settles O5: both refuse a misaligned transaction, and both answer what the heaviest row of an aligned one builds. -/
theorem decodeFollowsTheOpcodeTable : Obligations.DecodeFollowsTheOpcodeTable := by
  intro ht
  by_cases haligned : ht.extractLsb' 32 2 = 0#2
  · obtain ⟨row, hrow, hdecode⟩ := exists_heaviest_of_aligned haligned
    rw [decodeByTable, if_neg (not_not.mpr haligned), hrow.heaviestRow_eq, hdecode]
    rfl
  · rw [decodeByTable, if_pos haligned, decode_eq_error_iff.mpr ⟨haligned, rfl⟩]
    rfl

end Sys2Proof.Machine
end

section
/-! The lines and pseudo-instructions of a host program (30_encoding R78, R79). -/

namespace Sys2Proof.Machine

/-- The CTRL value of `CFG` as a number (30_encoding R76). -/
theorem ctrlOf_toNat (bdep chcnt chw : BitVec 2) (diag : Bool) :
    (ctrlOf bdep chcnt chw diag).toNat = bdep.toNat + 4 * chcnt.toNat + 16 * chw.toNat + 64 * diag.toNat := by
  decide +revert

theorem ctrlOf_fields (bdep chcnt chw : BitVec 2) (diag : Bool) :
    bdepField (ctrlOf bdep chcnt chw diag) = bdep ∧ chcntField (ctrlOf bdep chcnt chw diag) = chcnt ∧
    chwField (ctrlOf bdep chcnt chw diag) = chw ∧ modeField (ctrlOf bdep chcnt chw diag) = diag := by
  decide +revert

/-- The bits that a write to CTRL stores, of a word that holds nothing else (10_state R25). -/
theorem extract_setWidth_ctrl (ctrl : BitVec 7) : (ctrl.setWidth 32).extractLsb' 0 7 = ctrl := by
  decide +revert

/-- `CFG` writes the value of its field codes to CTRL (30_encoding R76, R79). -/
theorem cfg_line (bdep chcnt chw : BitVec 2) (diag : Bool) :
    ∃ imm : Word, decode (asmWord (.cfg bdep chcnt chw diag)) = .ok (.wrCtrl imm) ∧
      imm.toNat = bdep.toNat + 4 * chcnt.toNat + 16 * chw.toNat + 64 * diag.toNat ∧
      bdepField (imm.extractLsb' 0 7) = bdep ∧ chcntField (imm.extractLsb' 0 7) = chcnt ∧
      chwField (imm.extractLsb' 0 7) = chw ∧ modeField (imm.extractLsb' 0 7) = diag := by
  refine ⟨(ctrlOf bdep chcnt chw diag).setWidth 32, decode_registerWrite .ctrl _, ?_, ?_⟩
  · rw [BitVec.toNat_setWidth_of_le (by decide), ctrlOf_toNat]
  · rw [extract_setWidth_ctrl]
    exact ctrlOf_fields bdep chcnt chw diag

theorem rd_lines : ∀ line ∈ registers.map fun r => (r, registerRead r), decode (asmWord (.rd line.1)) = .ok line.2 :=
  List.forall_mem_map.mpr fun r _ => decode_registerRead r 0

theorem wr_lines (imm : Word) : ∀ line ∈ (registers.erase .cmd).map fun r => (r, registerWrite r imm),
    decode (asmWord (.wr line.1 imm)) = .ok line.2 :=
  List.forall_mem_map.mpr fun r _ => decode_registerWrite r imm

/-- Settles O7: a line's transaction has its register or address and its operand as fields, and decodes as that access does. -/
theorem assemblerLinesDecode : Obligations.AssemblerLinesDecode := by
  refine ⟨rd_lines, wr_lines, decode_registerWrite .cmd 0, decode_registerWrite .cmd 1, decode_registerWrite .cmd 2, ?_,
    fun k => decode_windowRead k 0, ?_, fun _ _ => ⟨rfl, rfl⟩, ?_, ?_, decode_registerWrite .cmd 0, decode_registerWrite .cmd 1,
    decode_registerWrite .cmd 2, decode_registerRead .status 0, decode_registerWrite .status, cfg_line⟩
  · intro imm h
    exact (decode_registerWrite .cmd imm).trans (congrArg _ (decodeCommand_of_gt h))
  · intro addr imm
    simp [asmWord]
  · intro k imm
    exact ⟨decode_windowRead k 0, decode_windowWrite k imm, fun hk => ⟨decode_unmappedRead hk 0, decode_unmappedWrite hk imm⟩⟩
  · intro addr imm h
    exact ⟨decode_misaligned false h 0, decode_misaligned true h imm⟩

end Sys2Proof.Machine
end

section
/-! The triangle (40_synthesizer R101, R102): its accumulator over one denominator, the exact rational sum that is, and how far it moves. -/

namespace Sys2Proof.Machine

/-- The steps up less the steps down that the accumulator has taken by frame `i` (40_synthesizer R101). -/
def netSteps (N i : Nat) : Int := 2 * ((min i (N / 2) + 1 : Nat) : Int) - ((i + 1 : Nat) : Int)

/-- `N` times the accumulator at frame `i` (40_synthesizer R101). -/
def triNumerator (b N i : Nat) : Int := -((2 : Int) ^ (b - 1) - 1) * N + netSteps N i * 2 ^ b

theorem tri_eq_tdiv (b N i : Nat) : tri b N i = (triNumerator b N i).tdiv N := by
  simp only [tri, triNumerator, netSteps]
  push_cast
  ring_nf

theorem up_eq_true_iff {N k : Nat} : up N k = true ↔ 2 * k ≤ N := by simp [up]

theorem up_eq_false_iff {N k : Nat} : up N k = false ↔ N < 2 * k := by simp [up]

theorem netSteps_zero (N : Nat) : netSteps N 0 = 1 := by simp [netSteps]

theorem netSteps_succ (N i : Nat) : netSteps N (i + 1) = netSteps N i + if up N (i + 1) then 1 else -1 := by
  simp only [netSteps]
  split
  next h => have := up_eq_true_iff.mp h; omega
  next h => have := up_eq_false_iff.mp (Bool.not_eq_true _ ▸ h); omega

/-- A cycle has more frames that go up than frames that go down, by no more than half of it and one. -/
theorem netSteps_bounds {N i : Nat} (hi : i < N) : 1 ≤ netSteps N i ∧ netSteps N i ≤ N / 2 + 1 := by
  simp only [netSteps]
  omega

theorem triNumerator_succ (b N i : Nat) :
    triNumerator b N (i + 1) = triNumerator b N i + if up N (i + 1) then 2 ^ b else -2 ^ b := by
  rw [triNumerator, netSteps_succ, triNumerator]
  split <;> ring

/-- A step of `x` up or down for each frame from 0 to `i`. -/
theorem sum_steps (N i : Nat) (x : ℚ) : ((List.range (i + 1)).map fun k => if up N k then x else -x).sum = netSteps N i * x := by
  induction i with
  | zero => simp [netSteps_zero, up]
  | succ i ih =>
    rw [List.range_succ, List.map_append, List.sum_append, ih, netSteps_succ]
    by_cases h : up N (i + 1) = true <;> simp [h] <;> ring

/-- The accumulator of the document is the numerator over `N` (40_synthesizer R101). -/
theorem accumulator_eq_div (b i : Nat) {N : Nat} (hN : 0 < N) :
    (-(2 ^ (b - 1) - 1) + ((List.range (i + 1)).map fun k => if up N k then (2 ^ b / N : ℚ) else -(2 ^ b / N)).sum) =
      (triNumerator b N i : ℚ) / (N : ℚ) := by
  have : (N : ℚ) ≠ 0 := by positivity
  rw [sum_steps, triNumerator]
  push_cast
  field_simp

/-! ### Division truncated toward zero -/

theorem tdiv_eq_floor {a : Int} {d : Nat} (ha : 0 ≤ a) : a.tdiv d = ⌊(a : ℚ) / (d : ℚ)⌋ := by
  rw [Rat.floor_intCast_div_natCast, Int.tdiv_eq_ediv_of_nonneg ha]

theorem tdiv_eq_ceil {a : Int} {d : Nat} (ha : a ≤ 0) : a.tdiv d = ⌈(a : ℚ) / (d : ℚ)⌉ := by
  have h := tdiv_eq_floor (a := -a) (d := d) (by omega)
  rw [Int.cast_neg, neg_div, Int.floor_neg, Int.neg_tdiv] at h
  omega

/-- Truncation keeps apart what is two units apart: one quotient at most takes the unit on each side of 0. -/
theorem tdiv_lt_tdiv {x y d : Int} (hd : 0 < d) (h : x + 2 * d ≤ y) : x.tdiv d < y.tdiv d := by
  have hx := Int.lt_tmod_of_pos x hd
  have hy := Int.tmod_lt_of_pos y hd
  have ex := Int.mul_tdiv_add_tmod x d
  have ey := Int.mul_tdiv_add_tmod y d
  by_contra hle
  have := mul_le_mul_of_nonneg_left (not_lt.mp hle) hd.le
  omega

theorem tdiv_lt_of_lt_mul {x d m : Int} (hd : 0 < d) (hm : 0 < m) (h : x < m * d) : x.tdiv d < m := by
  rcases le_total 0 x with hx | hx
  · rw [Int.tdiv_eq_ediv_of_nonneg hx]
    exact Int.ediv_lt_of_lt_mul hd h
  · have := Int.tdiv_nonneg (a := -x) (b := d) (by omega) hd.le
    rw [Int.neg_tdiv] at this
    omega

theorem neg_lt_tdiv_of_neg_mul_lt {x d m : Int} (hd : 0 < d) (hm : 0 < m) (h : -(m * d) < x) : -m < x.tdiv d := by
  have := tdiv_lt_of_lt_mul (x := -x) hd hm (by omega)
  rw [Int.neg_tdiv] at this
  omega

/-! ### The statements about the triangle -/

/-- Settles O38: the accumulator is the numerator over `N`, and the model divides the two with truncation toward zero. -/
theorem triangleIsTheTruncatedAccumulator : Obligations.TriangleIsTheTruncatedAccumulator := by
  intro b N i _ hi
  have hN : 0 < N := by omega
  have hNq : (0 : ℚ) < N := by exact_mod_cast hN
  dsimp only
  rw [accumulator_eq_div b i hN, tri_eq_tdiv]
  constructor
  · intro h
    rw [le_div_iff₀ hNq, zero_mul] at h
    exact tdiv_eq_floor (by exact_mod_cast h)
  · intro h
    rw [div_le_iff₀ hNq, zero_mul] at h
    exact tdiv_eq_ceil (by exact_mod_cast h)

/-- The three bit depths (40_synthesizer R100). -/
theorem depth_cases {b : Nat} (hb : b ∈ [16, 24, 32]) : b = 16 ∨ b = 24 ∨ b = 32 := by simpa using hb

/-- The accumulator stays above its start and, from 3 frames on, below `2^(b-1)` (40_synthesizer R101, R107). -/
theorem triNumerator_bounds {b N i : Nat} (hb : b ∈ [16, 24, 32]) (hN : 3 ≤ N) (hi : i < N) :
    -(((2 : Int) ^ (b - 1) - 1) * N) < triNumerator b N i ∧ triNumerator b N i < (2 : Int) ^ (b - 1) * N := by
  obtain ⟨hlo, hhi⟩ := netSteps_bounds hi
  obtain rfl | rfl | rfl := depth_cases hb <;> simp only [triNumerator] <;> omega

/-- Settles O42: the accumulator lies strictly between its start and `2^(b-1)`, and truncation takes it off both. -/
theorem triangleFitsFromThreeFramesOn : Obligations.TriangleFitsFromThreeFramesOn := by
  intro b N i hb hN hi
  obtain ⟨lower, upper⟩ := triNumerator_bounds hb hN hi
  have hNi : (0 : Int) < N := by omega
  have full : (2 : Int) ≤ 2 ^ (b - 1) := by obtain rfl | rfl | rfl := depth_cases hb <;> norm_num
  rw [tri_eq_tdiv]
  exact ⟨neg_lt_tdiv_of_neg_mul_lt hNi (by omega) lower, Int.le_sub_one_of_lt (tdiv_lt_of_lt_mul hNi (by omega) upper)⟩

/-- Settles O44: neighbouring numerators are `2^b` apart, which is at least `2·N`. -/
theorem triangleMovesStrictlyWithTheSineSign : Obligations.TriangleMovesStrictlyWithTheSineSign := by
  intro b N i hb hN hNb hi hiN
  obtain ⟨i, rfl⟩ := Nat.exists_eq_add_of_le' hi
  have hNi : (0 : Int) < N := by omega
  have hb0 : b ≠ 0 := by rintro rfl; simp at hb
  have apart : 2 * (N : Int) ≤ 2 ^ b := by
    rw [← mul_pow_sub_one hb0]
    exact_mod_cast Nat.mul_le_mul_left 2 hNb
  have next := triNumerator_succ b N i
  rw [Nat.add_sub_cancel, tri_eq_tdiv, tri_eq_tdiv]
  constructor <;> intro h <;> simp only [h, if_true, Bool.false_eq_true, if_false] at next
  · exact tdiv_lt_tdiv hNi (by omega)
  · exact tdiv_lt_tdiv hNi (by omega)

/-- Settles O43: the values, computed. -/
theorem triangleWrapsForOneAndTwoFrames : Obligations.TriangleWrapsForOneAndTwoFrames := by
  unfold Obligations.TriangleWrapsForOneAndTwoFrames
  decide

end Sys2Proof.Machine
end

section
/-! The sine (40_synthesizer R102, R103): the sign of the real sine over a cycle, and the sample as its scaled value truncated toward
zero. -/

namespace Sys2Proof.Machine

open Real

/-! ### The angle of a frame -/

/-- Frame `N - i` is the mirror image of frame `i` (40_synthesizer R103). -/
theorem sin_frame_sub {N i : Nat} (hN : 0 < N) (hi : i ≤ N) : sin (2 * π * (N - i : ℕ) / N) = -sin (2 * π * i / N) := by
  have : (N : ℝ) ≠ 0 := by positivity
  rw [← sin_two_pi_sub, Nat.cast_sub hi]
  congr 1
  field_simp

theorem sin_frame_nonneg {N i : Nat} (hN : 0 < N) (hi : 2 * i ≤ N) : 0 ≤ sin (2 * π * i / N) := by
  have hNR : (0 : ℝ) < N := by exact_mod_cast hN
  have hiR : 2 * (i : ℝ) ≤ N := by exact_mod_cast hi
  refine sin_nonneg_of_nonneg_of_le_pi (by positivity) ?_
  rw [div_le_iff₀ hNR]
  nlinarith [pi_pos]

theorem sin_frame_neg {N i : Nat} (hi : N < 2 * i) (hiN : i < N) : sin (2 * π * i / N) < 0 := by
  have hNR : (0 : ℝ) < N := by exact_mod_cast (by omega : 0 < N)
  have hm : 2 * ((N - i : ℕ) : ℝ) < N := by exact_mod_cast (by omega : 2 * (N - i) < N)
  have hm0 : (0 : ℝ) < (N - i : ℕ) := by exact_mod_cast (by omega : 0 < N - i)
  rw [← neg_pos, ← sin_frame_sub (by omega) hiN.le]
  refine sin_pos_of_pos_of_lt_pi (by positivity) ?_
  rw [div_lt_iff₀ hNR]
  nlinarith [pi_pos]

/-- Settles O39: the sine of a frame is negative exactly in the second half of the cycle, its middle left out. -/
theorem triangleDirectionIsTheSineSign : Obligations.TriangleDirectionIsTheSineSign := by
  intro N k hk
  rw [up_eq_true_iff]
  constructor
  · exact sin_frame_nonneg (by omega)
  · intro h
    by_contra hn
    exact absurd h (not_le.mpr (sin_frame_neg (not_le.mp hn) hk))

/-! ### The sample -/

/-- Full scale of a bit depth as a real number, from the natural number that the procedure takes. -/
theorem cast_fullScale (b : Nat) : ((2 ^ (b - 1) - 1 : ℕ) : ℝ) = 2 ^ (b - 1) - 1 := by
  rw [Nat.cast_sub Nat.one_le_two_pow]
  norm_num

/-- What the search for the sample finds: a number within full scale, and the greatest that the real sine reaches. -/
theorem sineUpper_spec {b N i : Nat} (hb : 2 ≤ b) (hN : 0 < N) (hi : 2 * i ≤ N) :
    sineUpper b N i ≤ 2 ^ (b - 1) - 1 ∧ (sineUpper b N i : Int) = ⌊(2 ^ (b - 1) - 1 : ℝ) * sin (2 * π * i / N)⌋ := by
  have hs : 0 < 2 ^ (b - 1) - 1 := by
    have := Nat.pow_le_pow_right (n := 2) (by norm_num) (show 1 ≤ b - 1 by omega)
    omega
  have hiff := fun k => sineAtLeast_iff (2 ^ (b - 1) - 1) N i k hs hN hi
  rw [cast_fullScale] at hiff
  have within : ∀ k, sineAtLeast (2 ^ (b - 1) - 1) N i k = true → k ≤ 2 ^ (b - 1) - 1 := by
    intro k h
    simp only [sineAtLeast, Bool.and_eq_true, decide_eq_true_iff] at h
    exact h.1
  have zero : sineAtLeast (2 ^ (b - 1) - 1) N i 0 = true := by
    rw [hiff, Nat.cast_zero, ← cast_fullScale]
    exact mul_nonneg (Nat.cast_nonneg _) (sin_frame_nonneg hN hi)
  have closed : ∀ k l, k ≤ l → sineAtLeast (2 ^ (b - 1) - 1) N i l = true → sineAtLeast (2 ^ (b - 1) - 1) N i k = true := by
    intro k l hkl h
    rw [hiff] at h ⊢
    exact le_trans (by exact_mod_cast hkl) h
  obtain ⟨-, hreached, hgreatest⟩ := greatest_spec _ closed (b - 1) 0 zero
  refine ⟨within _ hreached, (Int.floor_eq_iff.mpr ⟨by exact_mod_cast (hiff _).mp hreached, ?_⟩).symm⟩
  by_contra hn
  have hnext : sineAtLeast (2 ^ (b - 1) - 1) N i (sineUpper b N i + 1) = true := by
    rw [hiff]
    exact_mod_cast not_lt.mp hn
  have hlt := within _ hnext
  exact absurd (hgreatest _ (by omega) hnext) (by simp [sineUpper])

theorem sine_of_two_mul_le {b N i : Nat} (h : 2 * i ≤ N) : sine b N i = sineUpper b N i := by simp [sine, h]

theorem sine_of_lt_two_mul {b N i : Nat} (h : N < 2 * i) : sine b N i = -(sineUpper b N (N - i) : Int) := by
  simp [sine, not_le.mpr h]

/-- In the first half of the cycle truncation is the floor. -/
theorem sine_eq_floor {b N i : Nat} (hb : 2 ≤ b) (hN : 0 < N) (h : 2 * i ≤ N) :
    sine b N i = ⌊(2 ^ (b - 1) - 1 : ℝ) * sin (2 * π * i / N)⌋ := by
  rw [sine_of_two_mul_le h, (sineUpper_spec hb hN h).2]

/-- In the second half of the cycle truncation is the ceiling. -/
theorem sine_eq_ceil {b N i : Nat} (hb : 2 ≤ b) (h : N < 2 * i) (hi : i < N) :
    sine b N i = ⌈(2 ^ (b - 1) - 1 : ℝ) * sin (2 * π * i / N)⌉ := by
  rw [sine_of_lt_two_mul h, (sineUpper_spec hb (by omega) (by omega)).2, sin_frame_sub (by omega) hi.le, mul_neg, Int.floor_neg,
    neg_neg]

/-- The three bit depths have a full scale of at least 1. -/
theorem two_le_of_mem_depths {b : Nat} (hb : b ∈ [16, 24, 32]) : 2 ≤ b := by
  have := depth_cases hb
  omega

/-- Settles O40: each half of the cycle by its rounding; where the value has the other half's sign too it is 0, and both agree. -/
theorem sineIsTheTruncatedRealSine : Obligations.SineIsTheTruncatedRealSine := by
  intro b N i hb hi
  have hb2 := two_le_of_mem_depths hb
  have hs : (0 : ℝ) < 2 ^ (b - 1) - 1 := sub_pos.mpr (one_lt_pow₀ (by norm_num) (by omega))
  rcases le_or_gt (2 * i) N with h | h
  · rw [sine_eq_floor hb2 (by omega) h]
    refine ⟨fun _ => rfl, fun hneg => ?_⟩
    rw [le_antisymm hneg (mul_nonneg hs.le (sin_frame_nonneg (by omega) h)), Int.floor_zero, Int.ceil_zero]
  · rw [sine_eq_ceil hb2 h hi]
    exact ⟨fun hpos => absurd hpos (not_le.mpr (mul_neg_of_pos_of_neg hs (sin_frame_neg h hi))), fun _ => rfl⟩

/-! ### Corners, symmetry and range -/

theorem sine_zero {b N : Nat} (hb : 2 ≤ b) (hN : 0 < N) : sine b N 0 = 0 := by
  simp [sine_eq_floor hb hN (i := 0) (by omega)]

theorem sine_half {b i : Nat} (hb : 2 ≤ b) (hi : 0 < i) : sine b (2 * i) i = 0 := by
  have angle : 2 * π * i / (2 * i : ℕ) = π := by push_cast; field_simp
  rw [sine_eq_floor hb (by omega) le_rfl, angle, sin_pi, mul_zero, Int.floor_zero]

theorem sine_quarter {b i : Nat} (hb : 2 ≤ b) (hi : 0 < i) : sine b (4 * i) i = 2 ^ (b - 1) - 1 := by
  have angle : 2 * π * i / (4 * i : ℕ) = π / 2 := by push_cast; field_simp; norm_num
  rw [sine_eq_floor hb (by omega) (by omega), angle, sin_pi_div_two, mul_one, Int.floor_eq_iff]
  push_cast
  constructor <;> linarith

theorem sine_sub {b N i : Nat} (hb : 2 ≤ b) (hi0 : 0 < i) (hi : i < N) : sine b N (N - i) = -sine b N i := by
  rcases lt_trichotomy (2 * i) N with h | h | h
  · rw [sine_of_lt_two_mul (by omega), sine_of_two_mul_le h.le, Nat.sub_sub_self hi.le]
  · subst h
    rw [show 2 * i - i = i by omega, sine_half hb hi0, neg_zero]
  · rw [sine_of_two_mul_le (by omega), sine_of_lt_two_mul h, neg_neg]

theorem sine_natAbs_le {b N i : Nat} (hb : 2 ≤ b) (hi : i < N) : (sine b N i).natAbs ≤ 2 ^ (b - 1) - 1 := by
  rcases le_or_gt (2 * i) N with h | h
  · rw [sine_of_two_mul_le h, Int.natAbs_natCast]
    exact (sineUpper_spec hb (by omega) h).1
  · rw [sine_of_lt_two_mul h, Int.natAbs_neg, Int.natAbs_natCast]
    exact (sineUpper_spec hb (by omega) (by omega)).1

/-- Settles O41: three quarters of a turn is the mirror image of a quarter. -/
theorem sineSymmetryAndRange : Obligations.SineSymmetryAndRange := by
  intro b N i hb hi
  have hb2 := two_le_of_mem_depths hb
  have range := sine_natAbs_le (b := b) hb2 hi
  have full : ((2 ^ (b - 1) - 1 : ℕ) : Int) = 2 ^ (b - 1) - 1 := by
    rw [Nat.cast_sub Nat.one_le_two_pow]
    norm_num
  refine ⟨sine_zero hb2 (by omega), ?_, ?_, ?_, fun hi0 => sine_sub hb2 hi0 hi, by omega, by omega⟩
  · rintro rfl
    exact sine_half hb2 (by omega)
  · rintro rfl
    exact sine_quarter hb2 (by omega)
  · intro h
    obtain ⟨m, rfl⟩ : ∃ m, i = 3 * m := ⟨N - i, by omega⟩
    obtain rfl : N = 4 * m := by omega
    have mirror := sine_sub (N := 4 * m) (i := m) hb2 (by omega) (by omega)
    rwa [show 4 * m - m = 3 * m by omega, sine_quarter hb2 (by omega)] at mirror

end Sys2Proof.Machine
end

section
/-! What the synthesizer gives each channel, and the frames of diagnostic mode (40_synthesizer R100, R104 to R106). -/

namespace Sys2Proof.Machine

/-- The triangle-sine pair of channels `2k` and `2k + 1` (40_synthesizer R104). -/
theorem synth_triSine {c : Cfg} (hd : c.diag = false) (N i k : Nat) :
    synth c N i (2 * k) = (tri c.b N i, 0) ∧ synth c N i (2 * k + 1) = (sine c.b N i, 0) := by
  simp [synth, hd, triSineCh]

/-- Bit `j` and the index `j`, in every frame (40_synthesizer R105, R106). -/
theorem synth_diag {c : Cfg} (hd : c.diag = true) (N i j : Nat) : synth c N i j = ((2 : Int) ^ j, j) := by
  simp [synth, hd, diag, diagId]

/-- Settles O37: the two modes. -/
theorem synthesizerContract : Obligations.SynthesizerContract :=
  fun _ N i k => ⟨fun hd => synth_triSine hd N i k, fun hd => synth_diag hd N i k⟩

theorem pack_diag_const {c : Cfg} (hd : c.diag = true) (N i i' : Nat) : pack c N i = pack c N i' := by
  have words16 : pack16 c N i = pack16 c N i' := by funext w; simp only [pack16, synth_diag hd]
  have words24 : pack24 c N i = pack24 c N i' := by funext j; simp only [pack24, synth_diag hd]
  have words32 : pack32 c N i = pack32 c N i' := by funext j; simp only [pack32, synth_diag hd]
  simp only [pack, words16, words24, words32]

/-- The field of channel `j` is its sample in `b` bits, read as a signed number (41_packer R125). -/
theorem extractSample_pack {ctrl : BitVec 7} {c : Cfg} (h : legalCfg ctrl = some c) {N i j : Nat} {words : List Word}
    (hp : pack c N i = some words) (hj : j < c.C) : extractSample c words j = (BitVec.ofInt c.b (synth c N i j).1).toInt := by
  obtain ⟨hC, ⟨hb, hW⟩ | ⟨hb, hW⟩ | ⟨hb, hW⟩⟩ := legalCfg_cases h
  · have hw := pack_get16 hb hW hp (w := j / 2) (by omega)
    rcases Nat.mod_two_eq_zero_or_one j with he | ho
    · have hj2 : 2 * (j / 2) = j := by omega
      simp [extractSample, hb, hW, hw, he, hj2]
    · have hj2 : 2 * (j / 2) + 1 = j := by omega
      simp [extractSample, hb, hW, hw, ho, hj2]
  · simp [extractSample, hb, hW, pack_get24 hb hW hp hj]
  · simp [extractSample, hb, hW, pack_get32 hb hW hp hj, pack32]

/-- A number that `b` unsigned bits hold comes back from `b` bits read as a signed number, up to `2^b`. -/
theorem toInt_ofInt_emod {b : Nat} {x : Int} (h0 : 0 ≤ x) (h : x < 2 ^ b) : (BitVec.ofInt b x).toInt % 2 ^ b = x := by
  rw [BitVec.toInt_ofInt]
  have := Int.bmod_emod (x := x) (m := 2 ^ b)
  push_cast at this
  rw [this, Int.emod_eq_of_lt h0 h]

theorem two_pow_and_two_pow {j k : Nat} (h : j ≠ k) : 2 ^ j &&& 2 ^ k = 0 := by
  rw [Nat.and_two_pow, Nat.testBit_two_pow_of_ne h]
  simp

/-- Settles O45: the field of a channel is its sample, which is bit `j`, below `2^b` as a frame has at most 16 channels. -/
theorem diagnosticFramesAreConstantAndDisjoint : Obligations.DiagnosticFramesAreConstantAndDisjoint := by
  intro ctrl c N i i' h hd
  refine ⟨pack_diag_const hd N i i', fun words hp j hj => ?_, fun j j' _ _ hne => two_pow_and_two_pow hne⟩
  have hjb : j < c.b := by
    obtain ⟨hC, hb⟩ := legalCfg_cases h
    omega
  rw [extractSample_pack h hp hj, synth_diag hd]
  exact toInt_ofInt_emod (by positivity) (pow_lt_pow_right₀ (by norm_num) hjb)

end Sys2Proof.Machine
end

section
/-! The lengths of a frame and of a cycle, what extraction finds in a packed frame, and the stereo view of the cycle's buffer
(41_packer R121 to R126, R132). -/

namespace Sys2Proof.Machine

/-- The channels of a legal frame fill its words, and leave no bit over (41_packer R121). -/
theorem wordsPerFrame_bits {ctrl : BitVec 7} {c : Cfg} (h : legalCfg ctrl = some c) : 32 * wordsPerFrame c.C c.W = c.C * c.W := by
  obtain ⟨hC | hC | hC, ⟨-, hW⟩ | ⟨-, hW⟩ | ⟨-, hW⟩⟩ := legalCfg_cases h <;> simp [hC, hW, wordsPerFrame]

/-- Settles O47: a cycle is `N` frames of whole words, so the division by 8 is exact. -/
theorem packedLengthIsTheBufferLength : Obligations.PackedLengthIsTheBufferLength := by
  intro ctrl c N i h
  refine ⟨pack_legal h N i, (wordsPerFrame_legal h).1, ?_⟩
  have hbits : N * c.C * c.W = 32 * (N * wordsPerFrame c.C c.W) := by
    rw [Nat.mul_assoc, ← wordsPerFrame_bits h, Nat.mul_left_comm]
  rw [cycleWords_length h, hbits]
  omega

/-- A number that `b` signed bits hold comes back from `b` bits. -/
theorem toInt_ofInt_of_fits {b : Nat} (hb : 0 < b) {x : Int} (hlo : -(2 ^ (b - 1)) ≤ x) (hhi : x < 2 ^ (b - 1)) :
    (BitVec.ofInt b x).toInt = x := by
  have hpow : 2 ^ (b - 1) * 2 = 2 ^ b := Nat.pow_pred_mul hb
  have hcast : ((2 ^ (b - 1) : Nat) : Int) = 2 ^ (b - 1) := by norm_num
  rw [BitVec.toInt_ofInt]
  exact Int.bmod_eq_of_le (by omega) (by omega)

/-- The low byte of a (24, 32) word is the low part of its channel (41_packer R125). -/
theorem extractLow_pack {c : Cfg} (hb : c.b = 24) (hW : c.W = 32) {N i j : Nat} {words : List Word} (hp : pack c N i = some words)
    (hj : j < c.C) (hj16 : j < 16) : (extractLow words j).toNat = (synth c N i j).2 := by
  simp [extractLow, pack_get24 hb hW hp hj, Nat.mod_eq_of_lt (synth_low_lt c N i j hj16)]

/-- Settles O48: the field of a channel is its sample in `b` bits, which loses nothing of a sample that fits. -/
theorem extractionInvertsPacking : Obligations.ExtractionInvertsPacking := by
  intro ctrl c N i j words h hp hj
  obtain ⟨hC, hpair⟩ := legalCfg_cases h
  refine ⟨fun hlo hhi => ?_, fun hb => ?_⟩
  · rw [extractSample_pack h hp hj]
    exact toInt_ofInt_of_fits (by omega) hlo hhi
  · exact extractLow_pack hb (by omega) hp hj (by omega)

/-- The halves of word `k` of a (16, 16) frame are the slots of channels `2k` and `2k + 1` (41_packer R122). -/
theorem pack16_slots {c : Cfg} (hb : c.b = 16) (N i k : Nat) :
    ((pack16 c N i k).extractLsb' 16 16).toNat = slotOf c N i (2 * k) ∧
      ((pack16 c N i k).extractLsb' 0 16).toNat = slotOf c N i (2 * k + 1) := by
  simp [slotOf, hb]

/-- Word `j` of a frame of 32-bit channels is the slot of channel `j` (41_packer R123, R124). -/
theorem pack_get_slot {ctrl : BitVec 7} {c : Cfg} (h : legalCfg ctrl = some c) (hW : c.W = 32) {N i j : Nat} {words : List Word}
    (hp : pack c N i = some words) (hj : j < c.C) : ∃ v, words[j]? = some v ∧ v.toNat = slotOf c N i j := by
  obtain ⟨hC, ⟨-, hW'⟩ | ⟨hb, -⟩ | ⟨hb, -⟩⟩ := legalCfg_cases h
  · omega
  · exact ⟨_, pack_get24 hb hW hp hj, by simp [pack24_toNat c N i j (by omega), slotOf, hb]⟩
  · exact ⟨_, pack_get32 hb hW hp hj, by simp [pack32, slotOf, hb]⟩

/-- The stereo frames of (16, 16) words are the words, one by one (41_packer R126). -/
theorem stereoFrame_of_16 {c : Cfg} (hb : c.b = 16) (hW : c.W = 16) (buffer : Nat → Word) (q : Nat) :
    stereoFrame c buffer q = (((buffer q).extractLsb' 16 16).toNat, ((buffer q).extractLsb' 0 16).toNat) := by
  simp [stereoFrame, hb, hW]

/-- The stereo frames of 32-bit channels are the words, two by two (41_packer R126). -/
theorem stereoFrame_of_32 {c : Cfg} (hW : c.W = 32) (buffer : Nat → Word) (q : Nat) :
    stereoFrame c buffer q = ((buffer (2 * q)).toNat, (buffer (2 * q + 1)).toNat) := by
  simp [stereoFrame, hW]

/-- A known word of frame `i` is at its place in the cycle's buffer (41_packer R121). -/
theorem cycleWords_getD {ctrl : BitVec 7} {c : Cfg} (h : legalCfg ctrl = some c) {N i w : Nat} {words : List Word} {v : Word}
    (hi : i < N) (hw : w < wordsPerFrame c.C c.W) (hp : pack c N i = some words) (hv : words[w]? = some v) :
    (cycleWords c N).getD (i * wordsPerFrame c.C c.W + w) 0 = v := by
  rw [List.getD_eq_getElem?_getD, cycleWords_get h hi hw hp, hv, Option.getD_some]

/-- Settles O49: a stereo frame is one word of frame `i` where the channels are 16 bits wide, and two words where they are 32. -/
theorem stereoFramesAreTheBufferInOrder : Obligations.StereoFramesAreTheBufferInOrder := by
  intro ctrl c N i k h hi hk
  obtain ⟨words, hp, -⟩ := pack_legal h N i
  have hbits := wordsPerFrame_bits h
  obtain ⟨hC, hpair⟩ := legalCfg_cases h
  by_cases hW : c.W = 32
  · have hwpf : wordsPerFrame c.C c.W = c.C := by rw [hW] at hbits ⊢; omega
    have hplace : 2 * (i * (c.C / 2) + k) = i * wordsPerFrame c.C c.W + 2 * k := by
      rw [hwpf, Nat.mul_add, Nat.mul_left_comm, Nat.mul_div_cancel' (by omega)]
    obtain ⟨l, hl, hleft⟩ := pack_get_slot h hW hp (j := 2 * k) (by omega)
    obtain ⟨r, hr, hright⟩ := pack_get_slot h hW hp (j := 2 * k + 1) (by omega)
    rw [stereoFrame_of_32 hW, hplace, Nat.add_assoc, cycleWords_getD h hi (by omega) hp hl, cycleWords_getD h hi (by omega) hp hr,
      hleft, hright]
  · obtain ⟨hb, hW⟩ : c.b = 16 ∧ c.W = 16 := by omega
    have hwpf : wordsPerFrame c.C c.W = c.C / 2 := by rw [hW] at hbits ⊢; omega
    obtain ⟨hleft, hright⟩ := pack16_slots hb N i k
    rw [stereoFrame_of_16 hb hW, ← hwpf, cycleWords_getD h hi (by omega) hp (pack_get16 hb hW hp hk), hleft, hright]

end Sys2Proof.Machine
end

section
/-! The engine step (41_packer R130): its whole effect, what it does not read, and that no step of an invariant state faults. -/

namespace Sys2Proof.Machine

/-- The frame that brings FIDX to FPC is the last one. -/
theorem State.fidx_succ_eq_fpc_iff {s : State} (h : s.fidx.toNat < s.fpc.toNat) :
    s.fidx + 1 = s.fpc ↔ s.fidx.toNat + 1 = s.fpc.toNat := by
  rw [← BitVec.toNat_inj, State.fidx_succ_toNat h]

/-- Settles O51: the effect is `afterFrame`, whose writes the laws of memory describe. -/
theorem engineStepPacksOneFrame : Obligations.EngineStepPacksOneFrame := by
  intro s c words hb hi hc hw hf
  obtain ⟨_, hp, hlen⟩ := pack_legal hc s.fpc.toNat s.fidx.toNat
  cases hw.symm.trans hp
  refine ⟨s.afterFrame c words, execEngFrame_completes hb hi hc hw hf, State.fidx_succ_toNat hi, ?_, fun w hwl => ?_, hlen,
    fun a ha => ?_, rfl⟩
  · simp only [State.afterFrame_seq, State.fidx_succ_eq_fpc_iff hi, hb]
  · exact s.fbufWord_writeFbuf_inside _ w words (by rwa [hlen])
  · exact s.readByte_writeFbuf_outside _ a words (by rwa [hlen])

/-- Outside BUSY the engine is not enabled (41_packer R131). -/
theorem execEngFrame_of_not_busy {s : State} (h : s.seq ≠ BUSY) : exec .engFrame s = .next s := if_pos h

/-- Settles O52: the engine's first test is of STATE. -/
theorem engineTakesNoStepOutsideBusy : Obligations.EngineTakesNoStepOutsideBusy := fun _ => execEngFrame_of_not_busy

/-- Settles O53: the preconditions and the effect of the engine step speak of the active registers alone. -/
theorem engineReadsNoHostConfiguration : Obligations.EngineReadsNoHostConfiguration := by
  intro s t ctrl srate wfreq h
  rcases execEngFrame_next h with ⟨hs, rfl⟩ | ⟨hb, hi, c, words, hc, hw, hf, rfl⟩
  · exact execEngFrame_of_not_busy hs
  · exact execEngFrame_completes (s := { s with ctrl := ctrl, srate := srate, wfreq := wfreq }) hb hi hc hw hf

/-- A cycle of configuration `c` under way: a frame is left to pack, the packed ones lie in FBUF, and there is room for all. -/
structure State.Building (s : State) (c : Cfg) : Prop where
  busy : s.seq = BUSY
  left : s.fidx.toNat < s.fpc.toNat
  cfg : legalCfg s.actl = some c
  room : 4 * (s.fpc.toNat * wordsPerFrame c.C c.W) ≤ s.bufBytesMax
  frames : s.holdsFrames s.fidx.toNat

/-- The engine completes its step in a cycle under way: each of its checks was made at START (41_packer R130). -/
theorem State.Building.step {s : State} {c : Cfg} (h : s.Building c) :
    ∃ words, pack c s.fpc.toNat s.fidx.toNat = some words ∧ exec .engFrame s = .next (s.afterFrame c words) := by
  obtain ⟨words, hw, -⟩ := pack_legal h.cfg s.fpc.toNat s.fidx.toNat
  have hroom := (Nat.mul_le_mul_left 4 (Nat.mul_le_mul_right _ h.left)).trans h.room
  exact ⟨words, hw, execEngFrame_completes h.busy h.left h.cfg hw hroom⟩

/-- The buffer of the active registers has room for FPC frames (10_state R41 item 5). -/
theorem State.activeOk.room {s : State} (h : s.activeOk) {c : Cfg} (hc : legalCfg s.actl = some c) :
    4 * (s.fpc.toNat * wordsPerFrame c.C c.W) ≤ s.bufBytesMax := by
  obtain ⟨hwords, hcap⟩ := h.words_of_blen hc
  omega

/-- A BUSY state of the invariant has a cycle under way. -/
theorem State.Inv.building {s : State} (h : s.Inv) (hb : s.seq = BUSY) : ∃ c, s.Building c := by
  obtain ⟨hpos, hleft⟩ := h.busy hb
  have hactive := h.started fun h0 => by simp [h0] at hpos
  have ⟨c, hc, _⟩ := hactive
  exact ⟨c, hb, hleft, hc, hactive.room hc, h.frames (hb ▸ BUSY_ne_IDLE)⟩

/-- The invariant is all that the engine's move needs, in every STATE. -/
theorem State.Inv.engFrame_completes {s : State} (h : s.Inv) : ∃ t, exec .engFrame s = .next t := by
  by_cases hb : s.seq = BUSY
  · obtain ⟨c, hbuilding⟩ := h.building hb
    obtain ⟨words, -, hstep⟩ := hbuilding.step
    exact ⟨_, hstep⟩
  · exact ⟨s, execEngFrame_of_not_busy hb⟩

/-- Only the engine's move has a fault among its answers. -/
theorem eq_engFrame_of_exec_fault {i : Instr} {s : State} {f : Fault} (h : exec i s = .fault f) : i = .engFrame := by
  cases i with
  | engFrame => rfl
  | cmdStart =>
    replace h : execCmdStart s = .fault f := h
    unfold execCmdStart at h
    split at h <;> cases h
  | cmdRelease =>
    replace h : execCmdRelease s = .fault f := h
    unfold execCmdRelease at h
    split at h <;> cases h
  | _ => cases h

/-- A step that faults ran an operation that faults: taking the next event does not fault by itself. -/
theorem step_fault {s : State} {f : Fault} (h : step s = .fault f) : ∃ i, exec i s.advance = .fault f := by
  unfold step at h
  split at h
  · cases h
  · cases h
  · exact ⟨_, h⟩

/-- Settles O54: a fault could only be the engine's, which completes. -/
theorem noStepFaultsUnderTheInvariant : Obligations.NoStepFaultsUnderTheInvariant := by
  intro s f hs hstep
  obtain ⟨i, hfault⟩ := step_fault hstep
  obtain rfl := eq_engFrame_of_exec_fault hfault
  obtain ⟨t, hnext⟩ := hs.advance.engFrame_completes
  cases hfault.symm.trans hnext

end Sys2Proof.Machine
end

section
/-! The engine's run through a cycle: from an accepted START to READY in FPC steps (41_packer R131). -/

namespace Sys2Proof.Machine

/-- The cycle is complete: READY, with all FPC frames in FBUF (10_state R41 item 3). -/
structure State.Complete (s : State) : Prop where
  ready : s.seq = READY
  fidx_eq : s.fidx = s.fpc
  frames : s.holdsFrames s.fpc.toNat

/-- A frame more, and the cycle is complete or still under way. -/
theorem State.Building.afterFrame {s : State} {c : Cfg} (h : s.Building c) {words : List Word}
    (hw : pack c s.fpc.toNat s.fidx.toNat = some words) :
    (s.fidx.toNat + 1 = s.fpc.toNat ∧ (s.afterFrame c words).Complete) ∨
      (s.fidx.toNat + 1 ≠ s.fpc.toNat ∧ (s.afterFrame c words).Building c) := by
  have hsucc := State.fidx_succ_toNat h.left
  have hframes := State.holdsFrames_afterFrame h.cfg hw h.frames
  rcases State.afterFrame_seq_cases c words h.busy with ⟨hlast, hready⟩ | ⟨hmore, hbusy⟩
  · have hlast' := (State.fidx_succ_eq_fpc_iff h.left).mp hlast
    exact .inl ⟨hlast', hready, hlast, hlast' ▸ hframes⟩
  · have hmore' : s.fidx.toNat + 1 ≠ s.fpc.toNat := mt (State.fidx_succ_eq_fpc_iff h.left).mpr hmore
    have hleft : (s.fidx + 1).toNat < s.fpc.toNat := hsucc ▸ lt_of_le_of_ne h.left hmore'
    exact .inr ⟨hmore', hbusy, hleft, h.cfg, h.room, hsucc ▸ hframes⟩

/-- The engine completes a cycle under way in as many steps as frames are left, and keeps its active registers. -/
theorem State.Building.run {s : State} {c : Cfg} (h : s.Building c) {n : Nat} (hn : s.fidx.toNat + n = s.fpc.toNat) :
    ∃ u, engineSteps n s = .next u ∧ u.Complete ∧ u.fpc = s.fpc ∧ u.blen = s.blen ∧ u.actl = s.actl := by
  induction n generalizing s with
  | zero => exact absurd hn h.left.ne
  | succ n ih =>
    obtain ⟨words, hw, hstep⟩ := h.step
    have hrun : engineSteps (n + 1) s = engineSteps n (s.afterFrame c words) := by rw [engineSteps, hstep]
    rw [hrun]
    rcases h.afterFrame hw with ⟨hlast, hcomplete⟩ | ⟨-, hbuilding⟩
    · obtain rfl : n = 0 := by omega
      exact ⟨_, rfl, hcomplete, rfl, rfl, rfl⟩
    · refine ih hbuilding ?_
      rw [State.afterFrame_fidx, State.afterFrame_fpc, State.fidx_succ_toNat h.left]
      omega

/-- An accepted START has a cycle under way, with no frame packed yet (43_cycle_control R171). -/
theorem State.building_beginCycle {s : State} {g : Geom} (hg : startCheck s = .ok g) {c : Cfg} (hc : legalCfg s.ctrl = some c) :
    (s.beginCycle g).Building c := by
  obtain ⟨hactive, hne⟩ := State.activeOk_beginCycle hg
  exact ⟨rfl, Nat.pos_of_ne_zero fun h0 => hne (BitVec.eq_of_toNat_eq h0), hc, hactive.room hc,
    fun _ _ i hi => absurd hi (Nat.not_lt_zero i)⟩

theorem execCmdStart_of_accepted {s : State} {g : Geom} (hg : startCheck s = .ok g) : exec .cmdStart s = .next (s.beginCycle g) := by
  simp [exec, execCmdStart, hg]

/-- Settles O57: START begins a cycle under way at frame 0, and the run through it fills BLEN bytes with the cycle's words. -/
theorem acceptedStartCompletesInFpcSteps : Obligations.AcceptedStartCompletesInFpcSteps := by
  intro s c g hg hc
  obtain ⟨hblen, -⟩ := (State.activeOk_beginCycle hg).1.words_of_blen (s := s.beginCycle g) hc
  obtain ⟨u, hrun, hcomplete, hfpc, hblenu, hactl⟩ := (State.building_beginCycle hg hc).run (Nat.zero_add _)
  rw [← hfpc, ← hblenu] at hblen
  refine ⟨s.beginCycle g, u, execCmdStart_of_accepted hg, (State.beginCycle_toNat hg).1, hrun, hcomplete.ready, hcomplete.fidx_eq, hfpc,
    hblenu, ?_, fun k hk => ?_⟩
  · rw [cycleWords_length hc, hblen]
  · exact hcomplete.frames.fbufWord_eq (hactl ▸ hc) (hblen ▸ hk)

end Sys2Proof.Machine
end

section
/-! What each access of the host does: the register reads, the four cases of a read of the FBUF window, the configuration writes, and the
places that ignore a write (42_host_registers). -/

namespace Sys2Proof.Machine

/-- Settles O19: what the two operations do does not depend on their operands, and from word 12 on no register has the address. -/
theorem unmappedAddressesReadZeroAndIgnoreWrites : Obligations.UnmappedAddressesReadZeroAndIgnoreWrites :=
  fun _ k data => ⟨rfl, rfl, fun hk => ⟨lowAddr_toNat k, decode_unmappedRead hk data, decode_unmappedWrite hk data⟩⟩

/-- Settles O16: a register read delivers the register by its definition. -/
theorem registerReads : Obligations.RegisterReads :=
  fun _ => ⟨rfl, rfl, rfl, rfl, rfl, rfl, rfl, rfl, rfl, rfl, rfl, rfl⟩

section
variable {s : State} {k : WordIndex}

/-- A read at or beyond the capacity returns 0, in every state (42_host_registers R162). -/
theorem execRdFbuf_of_beyond (hk : s.bufBytesMax / 4 ≤ k.toNat) : exec (.rdFbuf k) s = .next (s.deliver 0) := by
  simp [exec, execRdFbuf, hk]

/-- A read below the capacity in BUSY returns a free value (42_host_registers R162). -/
theorem execRdFbuf_of_busy (hk : k.toNat < s.bufBytesMax / 4) (hs : s.seq = BUSY) : exec (.rdFbuf k) s = .next s.deliverDraw := by
  simp [exec, execRdFbuf, Nat.not_le.mpr hk, hs]

/-- A read of an unknown word below the capacity returns a free value, outside BUSY (42_host_registers R162). -/
theorem execRdFbuf_of_unknown (hk : k.toNat < s.bufBytesMax / 4) (hs : s.seq ≠ BUSY) (hv : s.fbufWord k.toNat = none) :
    exec (.rdFbuf k) s = .next s.deliverDraw := by
  simp [exec, execRdFbuf, Nat.not_le.mpr hk, hs, hv]

end

/-- Settles O17, for each of the four cases of a read of the window. -/
theorem fbufReadReturns : Obligations.FbufReadReturns :=
  fun _ _ => ⟨execRdFbuf_of_beyond, execRdFbuf_of_busy, execRdFbuf_of_unknown, fun _ => execRdFbuf_of_known⟩

/-- Settles O20: an ignored write answers the state it was given, by its definition. -/
theorem writesToReadOnlyPlacesAreIgnored : Obligations.WritesToReadOnlyPlacesAreIgnored :=
  fun _ _ _ => ⟨rfl, rfl, rfl, rfl, rfl, rfl, rfl, rfl⟩

/-- Settles O21: each write updates its one field by its definition. -/
theorem configurationWrites : Obligations.ConfigurationWrites := fun _ _ => ⟨rfl, rfl, rfl⟩

end Sys2Proof.Machine
end

section
/-! The commands and the write to STATUS (43_cycle_control): what START finds where every check passes, and each operation's whole
effect. -/

namespace Sys2Proof.Machine

/-- A legal configuration passes CHECK_CONFIG where its rates are in range (60_exceptions R201). -/
theorem checkConfig_of_legal {ctrl : BitVec 7} {srate wfreq : Nat} {c : Cfg} (hc : legalCfg ctrl = some c) (hwfreq : wfreq ≠ 0)
    (hN : srate / wfreq ≠ 0) (hwrate : srate * (c.C / 2) < 2 ^ 32) : checkConfig ctrl srate wfreq = .ok c := by
  obtain ⟨hdecode, hpair⟩ := legalCfg_eq_some.mp hc
  obtain ⟨hb, hC, hW, hdiag⟩ := decodeCfg_fields hdecode
  simp only [checkConfig, hb, hC, hW, hpair, if_neg hwfreq, if_neg hN, if_neg hwrate.not_ge, hdiag, Bool.true_eq_false, if_false]

/-- START finds the geometry of its configuration where every check passes (60_exceptions R203). -/
theorem startCheck_of_passed {s : State} {c : Cfg} (hs : s.seq = IDLE) (hc : legalCfg s.ctrl = some c) (hwfreq : s.wfreq.toNat ≠ 0)
    (hN : s.srate.toNat / s.wfreq.toNat ≠ 0) (hwrate : s.srate.toNat * (c.C / 2) < 2 ^ 32)
    (hroom : s.srate.toNat / s.wfreq.toNat * (c.C * c.W / 8) ≤ s.bufBytesMax) :
    startCheck s = .ok (geom c.C c.W s.srate.toNat s.wfreq.toNat) := by
  simp only [startCheck, if_neg (not_not.mpr hs), checkConfig_of_legal hc hwfreq hN hwrate]
  exact if_neg hroom.not_gt

/-- Settles O27: the checks pass, so START begins the cycle of its geometry, whose numbers fit the active registers. -/
theorem acceptedStartBeginsTheCycle : Obligations.AcceptedStartBeginsTheCycle := by
  intro s c hs hdecode hpair hwfreq hle hwrate hroom
  have hc : legalCfg s.ctrl = some c := legalCfg_eq_some.mpr ⟨hdecode, by simpa [legalPair] using hpair⟩
  have hpos : 0 < s.wfreq.toNat := Nat.pos_of_ne_zero fun h0 => hwfreq (BitVec.eq_of_toNat_eq h0)
  have hg := startCheck_of_passed hs hc hpos.ne' (Nat.div_pos hle hpos).ne' hwrate hroom
  obtain ⟨hfpc, hbpf, hblen, htmult, hwrateReg⟩ := State.beginCycle_toNat hg
  exact ⟨_, execCmdStart_of_accepted hg, rfl, hfpc, hbpf, hblen, htmult, hwrateReg, rfl, rfl, rfl⟩

/-- Settles O25: the command answers the state it was given, by its definition. -/
theorem nopCommandHasNoEffect : Obligations.NopCommandHasNoEffect := fun _ => rfl

/-- Settles O28: the command's one test is of STATE. -/
theorem releaseEndsTheHandOff : Obligations.ReleaseEndsTheHandOff := fun _ =>
  ⟨fun hready => if_neg (not_not.mpr hready), fun hother => if_pos hother⟩

/-- Settles O29: the command raises its error, by its definition. -/
theorem invalidCommandRaises : Obligations.InvalidCommandRaises := fun _ _ => rfl

/-- A flag whose bit is 1 in a write to STATUS is cleared, and a flag whose bit is 0 is kept (43_cycle_control R174). -/
theorem State.flag_clearFlags_cases (data : Word) (s : State) (f : ErrFlag) :
    (data.getLsbD f.statusBit = true → (clearFlags data s).flag f = false) ∧
      (data.getLsbD f.statusBit = false → (clearFlags data s).flag f = s.flag f) := by
  rw [State.flag_clearFlags]
  exact ⟨fun hone => by rw [hone, Bool.not_true, Bool.and_false], fun hzero => by rw [hzero, Bool.not_false, Bool.and_true]⟩

/-- A write to STATUS that leaves no flag clears ECODE (43_cycle_control R174). -/
theorem clearFlags_ecode_of_no_flag {data : Word} {s : State} (h : (clearFlags data s).cfgerr = false ∧
    (clearFlags data s).allocerr = false ∧ (clearFlags data s).cmderr = false) : (clearFlags data s).ecode = 0 := by
  obtain ⟨hcfg, halloc, hcmd⟩ := h
  rw [clearFlags_ecode, hcfg, halloc, hcmd]
  rfl

/-- A write to STATUS that leaves a flag keeps ECODE (43_cycle_control R174). -/
theorem clearFlags_ecode_of_flag {data : Word} {s : State} (h : (clearFlags data s).cfgerr = true ∨
    (clearFlags data s).allocerr = true ∨ (clearFlags data s).cmderr = true) : (clearFlags data s).ecode = s.ecode := by
  rw [clearFlags_ecode]
  exact if_pos (by simpa only [Bool.or_eq_true, or_assoc] using h)

/-- Settles O30: one argument for the three flags, and the two cases of ECODE. -/
theorem statusWriteClearsSelectedFlags : Obligations.StatusWriteClearsSelectedFlags := fun s data =>
  have ⟨hcfg, hcfgKept⟩ := State.flag_clearFlags_cases data s .cfgerr
  have ⟨halloc, hallocKept⟩ := State.flag_clearFlags_cases data s .allocerr
  have ⟨hcmd, hcmdKept⟩ := State.flag_clearFlags_cases data s .cmderr
  ⟨clearFlags data s, rfl, hcfg, hcfgKept, halloc, hallocKept, hcmd, hcmdKept, clearFlags_ecode_of_no_flag, clearFlags_ecode_of_flag,
    rfl⟩

end Sys2Proof.Machine
end

section
/-! Errors (60_exceptions): the causes and their flags, what `raise` does, the checks of START in their order, and that every
operation of the host, and RESET, completes. -/

namespace Sys2Proof.Machine

section checks
variable {ctrl : BitVec 7} {srate wfreq : Nat} {c : Cfg}

/-- The first check is of BDEP (60_exceptions R201). -/
theorem checkConfig_of_bdep_reserved (hbdep : bdepField ctrl = 3) : checkConfig ctrl srate wfreq = .error .cfgBdep := by
  simp [checkConfig, hbdep, bitDepth]

/-- The second check is of CHCNT (60_exceptions R201). -/
theorem checkConfig_of_chcnt_reserved (hbdep : bdepField ctrl ≠ 3) (hchcnt : chcntField ctrl = 3) :
    checkConfig ctrl srate wfreq = .error .cfgChcnt := by
  obtain ⟨hb, -, -⟩ := field_not_reserved _ hbdep
  obtain ⟨b, hb⟩ := Option.isSome_iff_exists.mp hb
  simp [checkConfig, hb, hchcnt, channelCount]

/-- The third check is of CHW (60_exceptions R201). -/
theorem checkConfig_of_chw_reserved (hbdep : bdepField ctrl ≠ 3) (hchcnt : chcntField ctrl ≠ 3) (hchw : chwField ctrl = 3) :
    checkConfig ctrl srate wfreq = .error .cfgChw := by
  obtain ⟨hb, -, -⟩ := field_not_reserved _ hbdep
  obtain ⟨-, hC, -⟩ := field_not_reserved _ hchcnt
  obtain ⟨b, hb⟩ := Option.isSome_iff_exists.mp hb
  obtain ⟨C, hC⟩ := Option.isSome_iff_exists.mp hC
  simp [checkConfig, hb, hC, hchw, channelWidth]

/-- Where no field is reserved, the next check is of the pair (60_exceptions R201). -/
theorem checkConfig_of_no_layout (hc : decodeCfg ctrl = some c) (hpair : legalPair c.b c.W ≠ true) :
    checkConfig ctrl srate wfreq = .error .cfgWidth := by
  obtain ⟨hb, hC, hW, -⟩ := decodeCfg_fields hc
  simp [checkConfig, hb, hC, hW, hpair]

/-- What CHECK_CONFIG has left to check in a legal configuration: the rates, in the order of 60_exceptions R201. -/
theorem checkConfig_eq_of_legal (hc : legalCfg ctrl = some c) :
    checkConfig ctrl srate wfreq =
      if wfreq = 0 then .error .cfgWfreqZero
      else if srate / wfreq = 0 then .error .cfgNoFrames
      else if 2 ^ 32 ≤ srate * (c.C / 2) then .error .cfgWrateOvf
      else .ok c := by
  obtain ⟨hdecode, hpair⟩ := legalCfg_eq_some.mp hc
  obtain ⟨hb, hC, hW, hdiag⟩ := decodeCfg_fields hdecode
  simp only [checkConfig, hb, hC, hW, hpair, hdiag, Bool.true_eq_false, if_false]

theorem checkConfig_of_wfreq_zero (hc : legalCfg ctrl = some c) (hwfreq : wfreq = 0) :
    checkConfig ctrl srate wfreq = .error .cfgWfreqZero := by
  rw [checkConfig_eq_of_legal hc, if_pos hwfreq]

theorem checkConfig_of_no_frames (hc : legalCfg ctrl = some c) (hwfreq : wfreq ≠ 0) (hN : srate / wfreq = 0) :
    checkConfig ctrl srate wfreq = .error .cfgNoFrames := by
  rw [checkConfig_eq_of_legal hc, if_neg hwfreq, if_pos hN]

theorem checkConfig_of_wrate_overflow (hc : legalCfg ctrl = some c) (hwfreq : wfreq ≠ 0) (hN : srate / wfreq ≠ 0)
    (hwrate : 2 ^ 32 ≤ srate * (c.C / 2)) : checkConfig ctrl srate wfreq = .error .cfgWrateOvf := by
  rw [checkConfig_eq_of_legal hc, if_neg hwfreq, if_neg hN, if_pos hwrate]

end checks

/-- The pairs that have a layout (10_state R26). -/
theorem legalPair_iff {b W : Nat} : legalPair b W = true ↔ (b, W) = (16, 16) ∨ (b, W) = (24, 32) ∨ (b, W) = (32, 32) := by
  simp [legalPair]

section rejected
variable {s : State} {e : ErrCode}

/-- START raises the error it finds, and does nothing else (43_cycle_control R171). -/
theorem execCmdStart_of_rejected (he : startCheck s = .error e) : exec .cmdStart s = .next (s.raise e) := by
  simp [exec, execCmdStart, he]

/-- Outside IDLE, START looks at nothing else (60_exceptions R204). -/
theorem startCheck_of_not_idle (hs : s.seq ≠ IDLE) : startCheck s = .error .cmdStartState := if_pos hs

/-- In IDLE, START raises what CHECK_CONFIG raises (60_exceptions R201). -/
theorem execCmdStart_of_checkConfig_error (hs : s.seq = IDLE) (he : checkConfig s.ctrl s.srate.toNat s.wfreq.toNat = .error e) :
    exec .cmdStart s = .next (s.raise e) :=
  execCmdStart_of_rejected (by simp [startCheck, hs, he])

/-- After CHECK_CONFIG comes the allocation check (60_exceptions R203). -/
theorem startCheck_of_no_room {c : Cfg} (hs : s.seq = IDLE) (hc : checkConfig s.ctrl s.srate.toNat s.wfreq.toNat = .ok c)
    (hroom : s.bufBytesMax < s.srate.toNat / s.wfreq.toNat * (c.C * c.W / 8)) : startCheck s = .error .alloc := by
  simp only [startCheck, if_neg (not_not.mpr hs), hc]
  exact if_pos hroom

end rejected

/-- Settles O26: each check is reached where the ones before it have passed. -/
theorem rejectedStartReportsTheFirstError : Obligations.RejectedStartReportsTheFirstError := by
  refine fun s => ⟨fun hs => execCmdStart_of_rejected (startCheck_of_not_idle hs),
    fun hs hbdep => execCmdStart_of_checkConfig_error hs (checkConfig_of_bdep_reserved hbdep),
    fun hs hbdep hchcnt => execCmdStart_of_checkConfig_error hs (checkConfig_of_chcnt_reserved hbdep hchcnt),
    fun hs hbdep hchcnt hchw => execCmdStart_of_checkConfig_error hs (checkConfig_of_chw_reserved hbdep hchcnt hchw),
    fun c hs hdecode => ⟨fun h16 h24 h32 => ?_, fun hlegal => ?_⟩⟩
  · have hpair : legalPair c.b c.W ≠ true := mt legalPair_iff.mp (not_or.mpr ⟨h16, not_or.mpr ⟨h24, h32⟩⟩)
    exact execCmdStart_of_checkConfig_error hs (checkConfig_of_no_layout hdecode hpair)
  have hc : legalCfg s.ctrl = some c := legalCfg_eq_some.mpr ⟨hdecode, legalPair_iff.mpr hlegal⟩
  refine ⟨fun hzero => execCmdStart_of_checkConfig_error hs (checkConfig_of_wfreq_zero hc (congrArg BitVec.toNat hzero)),
    fun hwfreq hlt => ?noFrames, fun hwfreq hle hover => ?overflow, fun hwfreq hle hwrate hroom => ?noRoom⟩
  all_goals have hpos : 0 < s.wfreq.toNat := Nat.pos_of_ne_zero fun h0 => hwfreq (BitVec.eq_of_toNat_eq h0)
  case noFrames =>
    exact execCmdStart_of_checkConfig_error hs (checkConfig_of_no_frames hc hpos.ne' (Nat.div_eq_of_lt hlt))
  case overflow =>
    exact execCmdStart_of_checkConfig_error hs (checkConfig_of_wrate_overflow hc hpos.ne' (Nat.div_pos hle hpos).ne' hover)
  case noRoom =>
    have hcheck := checkConfig_of_legal hc hpos.ne' (Nat.div_pos hle hpos).ne' hwrate
    exact execCmdStart_of_rejected (startCheck_of_no_room hs hcheck hroom)

/-- START answers a next state, whatever it finds. -/
theorem execCmdStart_completes (s : State) : ∃ t, exec .cmdStart s = .next t := by
  cases hfound : startCheck s with
  | error e => exact ⟨_, execCmdStart_of_rejected hfound⟩
  | ok g => exact ⟨_, execCmdStart_of_accepted hfound⟩

/-- RELEASE answers a next state, in READY and outside it. -/
theorem execCmdRelease_completes (s : State) : ∃ t, exec .cmdRelease s = .next t := by
  obtain ⟨hready, hother⟩ := releaseEndsTheHandOff s
  by_cases hs : s.seq = READY
  · exact ⟨_, hready hs⟩
  · exact ⟨_, hother hs⟩

/-- Settles O13: only the two commands with a check have a test to make, and each side of it is a next state. -/
theorem everyHostOperationCompletes : Obligations.EveryHostOperationCompletes := by
  intro i s hi
  cases i with
  | engFrame => exact absurd rfl hi
  | cmdStart => exact execCmdStart_completes s
  | cmdRelease => exact execCmdRelease_completes s
  | _ => exact ⟨_, rfl⟩

/-- Settles O23: the table of R200, by the definitions of the code and of the flag. -/
theorem errorCodesAndTheirFlags : Obligations.ErrorCodesAndTheirFlags := rfl

/-- Settles O24: the law of `raise`. -/
theorem raiseSetsItsFlagAndCodeOnly : Obligations.RaiseSetsItsFlagAndCodeOnly := State.raise_eq

end Sys2Proof.Machine
end

section
/-! Reset (70_reset_and_hazards R220): the state RESET leaves, and the reset state as the host's reads and a START find it. -/

namespace Sys2Proof.Machine

/-- Where no byte is known, no word is (10_state R40). -/
theorem State.fbufWord_of_mem_nil {s : State} (hm : s.mem = []) (k : Nat) : s.fbufWord k = none := by
  simp only [State.fbufWord, hm]
  rfl

/-- In IDLE with no flag and no code, STATUS is 0 (42_host_registers R147). -/
theorem statusWord_eq_zero {s : State} (hseq : s.seq = IDLE) (hcfg : s.cfgerr = false) (halloc : s.allocerr = false)
    (hcmd : s.cmderr = false) (hecode : s.ecode = 0) : statusWord s = 0 := by
  simp only [statusWord, hseq, hcfg, halloc, hcmd, hecode]
  decide

/-- Settles O14: RESET does not look at the state, and what it leaves holds the empty memory. -/
theorem resetOperation : Obligations.ResetOperation := fun _ =>
  ⟨_, rfl, rfl, rfl, rfl, statusWord_eq_zero rfl rfl rfl rfl rfl, rfl, rfl, rfl, rfl, rfl, rfl, rfl, rfl, rfl, rfl, rfl, rfl,
    fun _ => rfl, State.fbufWord_of_mem_nil rfl⟩

/-- CTRL at 0 names the legal configuration of four 16-bit channels (30_encoding R74). -/
theorem legalCfg_zero : legalCfg 0 = some ⟨16, 4, 16, false⟩ := by decide

/-- The first check that fails after reset is of WFREQ (60_exceptions R201, 95_test_vectors V-RS-1). -/
theorem execCmdStart_reset : exec .cmdStart State.reset = .next (State.reset.raise .cfgWfreqZero) :=
  execCmdStart_of_checkConfig_error rfl (checkConfig_of_wfreq_zero legalCfg_zero rfl)

/-- A read below the capacity returns the first free value, as no word is known after reset (42_host_registers R162, log 6). -/
theorem execRdFbuf_reset {k : WordIndex} (hk : k.toNat < State.reset.bufBytesMax / 4) :
    exec (.rdFbuf k) State.reset = .next State.reset.deliverDraw :=
  execRdFbuf_of_unknown hk IDLE_ne_BUSY (State.fbufWord_of_mem_nil rfl k.toNat)

/-- Settles O15: the register reads deliver registers that are 0, START fails its check of WFREQ, and FBUF is unknown. -/
theorem theResetStateAsTheHostSeesIt : Obligations.TheResetStateAsTheHostSeesIt := by
  refine ⟨?_, execCmdStart_reset, rfl, fun _ => execRdFbuf_reset⟩
  simp only [List.forall_mem_cons, List.not_mem_nil, false_imp_iff, implies_true, and_true]
  exact registerReads State.reset

end Sys2Proof.Machine
end
